-- ==== Sys2Proof/Word.lean ====
section
/-! DEFINITION. The word types of the engine: the byte and the program counter's word
(00_scope.md R6, R7). -/

namespace Sys2Proof

/-- An 8-bit unsigned value, bit 0 the least significant (R7). Memory cells, general registers, SP
and operands are bytes (R6). -/
abbrev Byte := BitVec 8

/-- The word of the program counter: 9 bits, so that it can hold 0..256 (R6, R26, R40; the spec's
decision D3, entry 10). -/
abbrev PcWord := BitVec 9

end Sys2Proof
end

