-- ==== Sys2Proof/Config.lean ====
section
/-! DEFINITION. The parameters of the hardware, each at the value 00_scope.md R6 gives it, and the
ALU's operation selects (41_alu.md R130). The spec leaves no parameter open and no value free, so
this file holds no opaque constant. -/

namespace Sys2Proof.Config

/-- MEM_SIZE: 256 cells, addresses 0..255 (R6, R60). -/
abbrev memSize : Nat := 256

/-- NUM_GPR: R0 to R7 (R6, R21). -/
abbrev numGpr : Nat := 8

/-- SP_RESET (R6, R29). -/
def spReset : Byte := 0xF4#8

/-- PC_RESET (R6, R26). -/
def pcReset : PcWord := 0#9

/-- LOAD_ADDR: the address of a program image's first byte (R6, R99). -/
def loadAddr : Nat := 0

/-- The byte a cell holds at reset (R61). -/
def memReset : Byte := 0#8

/-- The byte a general register holds at reset (R25). -/
def gprReset : Byte := 0#8

/-- The ALU's operation selects are the opcode bytes of ADD, MUL and CMP (R130; the spec's D25). -/
def selectAdd : Byte := 0xA0#8

def selectMul : Byte := 0xA2#8

def selectCmp : Byte := 0xA7#8

end Sys2Proof.Config
end

