-- ==== Sys2Proof/Syntax.lean ====
section
/-! DEFINITION. The instructions: one constructor per row of the opcode map (30_encoding.md R91).
An operand is the whole byte that the encoding gives it (R85, R89): an index 8..255 is encodable and
raises only when it is used (R94). An unknown opcode is no row of the map; the decoder answers it as
`Decoded.unknown` (R92; entry 8). -/

namespace Sys2Proof

/-- The twelve instructions (R2, R91). `a` is operand A, `b` operand B. -/
inductive Instr where
  /-- R150: load the immediate byte into register A. -/
  | ldi (a b : Byte)
  /-- R151: emit register A to the display sink. -/
  | prn (a : Byte)
  /-- R190: halt. -/
  | hlt
  /-- R132: add register B into register A. -/
  | add (a b : Byte)
  /-- R133: multiply register A by register B. -/
  | mul (a b : Byte)
  /-- R160: push register A. -/
  | push (a : Byte)
  /-- R161: pop into register A. -/
  | pop (a : Byte)
  /-- R134: compare register A with register B. -/
  | cmp (a b : Byte)
  /-- R175: jump to the address in register A. -/
  | jmp (a : Byte)
  /-- R176: jump if Equal is set. -/
  | jeq (a : Byte)
  /-- R177: jump if Equal is clear. -/
  | jne (a : Byte)
  /-- R191: no operation. -/
  | nop
  deriving DecidableEq, Repr

/-- The three bytes a step fetches, at pc, pc+1 and pc+2 (R111; the latches of R37). -/
structure Fetched where
  op : Byte
  a : Byte
  b : Byte
  deriving DecidableEq, Repr

/-- What the decoder yields: an instruction of the map, or the opcode byte that is none (R92). -/
inductive Decoded where
  | instr (i : Instr)
  | unknown (op : Byte)
  deriving DecidableEq, Repr

end Sys2Proof
end

