-- ==== Sys2Proof/Decode.lean ====
section
/-! DEFINITION. The decoder, total on any bytes, and after it the encoder, both written from the
opcode map of 30_encoding.md R91 and the formats of R86. The binary literals are read with their
leftmost digit as bit 7 (R7; the spec's D1, entry 16). -/

namespace Sys2Proof

/-- Decode compares all eight bits of `op` with the twelve values of the map and selects the equal
row; any other byte is `unknown` (R92, R112). The length plays no part in the fetch (R96). -/
def decode (f : Fetched) : Decoded :=
  if f.op = 0x82#8 then .instr (.ldi f.a f.b)
  else if f.op = 0x47#8 then .instr (.prn f.a)
  else if f.op = 0x01#8 then .instr .hlt
  else if f.op = 0xA0#8 then .instr (.add f.a f.b)
  else if f.op = 0xA2#8 then .instr (.mul f.a f.b)
  else if f.op = 0x45#8 then .instr (.push f.a)
  else if f.op = 0x46#8 then .instr (.pop f.a)
  else if f.op = 0xA7#8 then .instr (.cmp f.a f.b)
  else if f.op = 0x54#8 then .instr (.jmp f.a)
  else if f.op = 0x55#8 then .instr (.jeq f.a)
  else if f.op = 0x56#8 then .instr (.jne f.a)
  else if f.op = 0x00#8 then .instr .nop
  else .unknown f.op

/-- The three bytes at the head of a byte sequence; a byte the sequence lacks reads as 0. -/
def window (bytes : List Byte) : Fetched :=
  ⟨bytes.getD 0 0#8, bytes.getD 1 0#8, bytes.getD 2 0#8⟩

/-- The opcode byte of an instruction (R91). -/
def Instr.opcode : Instr → Byte
  | .ldi _ _ => 0b10000010#8
  | .prn _ => 0b01000111#8
  | .hlt => 0b00000001#8
  | .add _ _ => 0b10100000#8
  | .mul _ _ => 0b10100010#8
  | .push _ => 0b01000101#8
  | .pop _ => 0b01000110#8
  | .cmp _ _ => 0b10100111#8
  | .jmp _ => 0b01010100#8
  | .jeq _ => 0b01010101#8
  | .jne _ => 0b01010110#8
  | .nop => 0b00000000#8

/-- The operand bytes of an instruction, A first: none in format F0, one in F1, two in F2 (R86). -/
def Instr.operandBytes : Instr → List Byte
  | .ldi a b => [a, b]
  | .prn a => [a]
  | .hlt => []
  | .add a b => [a, b]
  | .mul a b => [a, b]
  | .push a => [a]
  | .pop a => [a]
  | .cmp a b => [a, b]
  | .jmp a => [a]
  | .jeq a => [a]
  | .jne a => [a]
  | .nop => []

/-- The instruction's bytes at increasing addresses: opcode, A, B (R66, R85). -/
def encode (i : Instr) : List Byte := i.opcode :: i.operandBytes

/-- A program image: the instructions' bytes one after another (R99). -/
def encodeProgram (p : List Instr) : List Byte := p.flatMap encode

/-- The length of an instruction in bytes, known from its row alone (R96). -/
def Instr.length : Instr → Nat
  | .ldi _ _ => 3
  | .prn _ => 2
  | .hlt => 1
  | .add _ _ => 3
  | .mul _ _ => 3
  | .push _ => 2
  | .pop _ => 2
  | .cmp _ _ => 3
  | .jmp _ => 2
  | .jeq _ => 2
  | .jne _ => 2
  | .nop => 1

/-- The length of what the decoder yields: an unknown opcode is one byte whatever its bits (R93, R96). -/
def Decoded.length : Decoded → Nat
  | .instr i => i.length
  | .unknown _ => 1

/-- Byte k of an instruction whose bits are `w`: bits 8k+7 .. 8k (the first byte at the lowest address). -/
def tableByte (nbits w k : Nat) : Byte := BitVec.ofNat 8 ((w % 2 ^ nbits) / 2 ^ (8 * k))

/-- The three bytes of an instruction given as a number of `nbits` bits; the bits above are 0. -/
def tableBytes (nbits w : Nat) : Fetched :=
  ⟨tableByte nbits w 0, tableByte nbits w 1, tableByte nbits w 2⟩

/-- The instruction the decoder reads from a word of the opcode table, none for an unknown opcode. -/
def decodeTableWord (nbits w : Nat) : Option Instr :=
  match decode (tableBytes nbits w) with
  | .instr i => some i
  | .unknown _ => none

end Sys2Proof
end

