-- ==== Sys2Proof/Machine/State.lean ====
section
/-! DEFINITION. The state of the engine (10_state.md R20), as plain data, the conditions it can
raise (60_exceptions.md R201), and its value after reset (10_state.md R42). -/

namespace Sys2Proof.Machine

/-- The memory: a list of (address, byte) in one canonical form, addresses strictly rising and below
256, no entry equal to the reset byte 0, which an unlisted address reads as (20_memory.md R60, R61).
`Memory.wf` in Ops.lean says the form. -/
abbrev Memory := List Host.Cell

/-- The flag register: Equal, Less-than, Greater-than (R32), held as three Booleans as R33 allows. -/
structure Flags where
  e : Bool
  l : Bool
  g : Bool
  deriving DecidableEq, Repr

/-- The cause of a fault (R36, R205). -/
inductive Cause where
  /-- Code 1: a fetch or a loader write at an address above 255. -/
  | outOfRangeAddress
  /-- Code 2: a used register index above 7. -/
  | outOfRangeRegister
  /-- Code 3: an ALU operation select that is none; no step produces it (R203). -/
  | unsupportedOperation
  deriving DecidableEq, Repr

/-- The fault record: cause, pc of the faulting step, offending address, index or select (R36). -/
structure FaultRecord where
  cause : Cause
  pc : PcWord
  value : Nat
  deriving DecidableEq, Repr

/-- The engine status; the record exists only in status Faulted (R35, R36). -/
inductive Status where
  | running
  | halted
  | faulted (r : FaultRecord)
  deriving DecidableEq, Repr

/-- An `UnknownInstruction(pc, op)` event of the diagnostic stream (R39). -/
structure DiagEvent where
  pc : PcWord
  op : Byte
  deriving DecidableEq, Repr

/-- A fatal condition with its information, as `raise` carries it (R11, R201). -/
inductive Condition where
  | outOfRangeAddress (addr : Nat)
  | outOfRangeRegister (index : Nat)
  | unsupportedOperation (select : Byte)
  deriving DecidableEq, Repr

/-- The complete architectural state of the engine (R20). -/
structure State where
  /-- The 256 one-byte cells (R60). -/
  mem : Memory
  /-- R0 to R7 (R21). -/
  regs : Vector Byte Config.numGpr
  /-- The stack pointer, no general register (R22, R29). -/
  sp : Byte
  /-- The flag register (R32). -/
  fl : Flags
  /-- The program counter, 0..256 (R26). -/
  pc : PcWord
  /-- Running, Halted or Faulted with its record (R35). -/
  status : Status
  /-- The display stream, oldest entry first (R38). -/
  out : List Byte
  /-- The diagnostic stream, oldest event first (R39). -/
  diag : List DiagEvent
  deriving DecidableEq, Repr

/-- Every piece of state at the value R42 gives it. Status Running is R35's "when the run starts"
(entry 4); the flags' 0 is the spec's decision D6 (entry 9). No program is in memory (entry 6). -/
def State.reset : State where
  mem := []
  regs := Vector.replicate Config.numGpr Config.gprReset
  sp := Config.spReset
  fl := ⟨false, false, false⟩
  pc := Config.pcReset
  status := .running
  out := []
  diag := []

/-- Why no step exists. A raised condition is no member: it is a next state whose status is Faulted
(R114, R207; entry 1). Both are safe: the model stops where the spec says no step exists. -/
inductive Fault where
  /-- `step` from status Halted: "no further fetch occurs" (R110). Safe. -/
  | noStepFromHalted
  /-- `step` from status Faulted: "No step is taken from it" (R35, R110). Safe. -/
  | noStepFromFaulted
  deriving DecidableEq, Repr

/-- Refusals. -/
inductive Refusal where
  /-- An arm of `exec` that has no meaning yet; no arm of this model is one. Safe. -/
  | notModelled (mnemonic : String)
  deriving DecidableEq, Repr

end Sys2Proof.Machine
end

