-- ==== Sys2Proof/Machine/Ops.lean ====
section
/-! DEFINITION. The named operations over memory, registers, streams and pc (00_scope.md R9 to R11),
raising a condition and entering Faulted (60_exceptions.md R207), the fetch (40_execution_cycle.md
R111) and the stack addresses (10_state.md R30, R31). -/

namespace Sys2Proof.Machine

/-! ### One named update per field -/

def State.withMem (s : State) (m : Memory) : State := { s with mem := m }

def State.withRegs (s : State) (r : Vector Byte Config.numGpr) : State := { s with regs := r }

def State.withSp (s : State) (v : Byte) : State := { s with sp := v }

def State.withFl (s : State) (f : Flags) : State := { s with fl := f }

def State.withPc (s : State) (p : PcWord) : State := { s with pc := p }

def State.withStatus (s : State) (x : Status) : State := { s with status := x }

def State.withOut (s : State) (o : List Byte) : State := { s with out := o }

def State.withDiag (s : State) (d : List DiagEvent) : State := { s with diag := d }

/-! ### Raising a condition and entering Faulted -/

/-- The cause a condition is recorded under (R205). -/
def Condition.cause : Condition → Cause
  | .outOfRangeAddress _ => .outOfRangeAddress
  | .outOfRangeRegister _ => .outOfRangeRegister
  | .unsupportedOperation _ => .unsupportedOperation

/-- The value a condition records: the address, the index or the select byte (R36, R205). -/
def Condition.value : Condition → Nat
  | .outOfRangeAddress addr => addr
  | .outOfRangeRegister index => index
  | .unsupportedOperation select => select.toNat

/-- The fault record of a condition raised by the step at `pc` (R36, R207). -/
def Condition.record (c : Condition) (pc : PcWord) : FaultRecord := ⟨c.cause, pc, c.value⟩

/-- Fault entry (R207): status becomes Faulted with the record, and registers, SP, FL, pc, memory,
out and diag keep their values from the start of the step. There is no return from a fault beside
it: "There is no return from a fault and no trap-return instruction" (R208); only reset leaves it. -/
def enterFault (c : Condition) (s : State) : State := s.withStatus (.faulted (c.record s.pc))

/-- The end of a step that began in `s` (R114): without a raise all results are committed together,
with a raise none is and the engine enters Faulted. Both are next states (entry 1). -/
def commit (s : State) : Except Condition State → Host.Outcome State Fault Refusal
  | .ok t => .next t
  | .error c => .next (enterFault c s)

/-! ### Memory -/

/-- The byte in cell `a` of the list form; an unlisted cell holds the reset byte (R61). -/
def Memory.read : Memory → Nat → Byte
  | [], _ => Config.memReset
  | (k, v) :: rest, a => if k = a then v else Memory.read rest a

/-- The cell list `rest` with the cell `(a, v)` in front, left out when `v` is the reset byte. -/
def Memory.listCell (a : Nat) (v : Byte) (rest : Memory) : Memory :=
  if v = Config.memReset then rest else (a, v) :: rest

/-- Cell `a` becomes `v`, in the canonical form. -/
def Memory.write : Memory → Nat → Byte → Memory
  | [], a, v => Memory.listCell a v []
  | (k, w) :: rest, a, v =>
    if a < k then Memory.listCell a v ((k, w) :: rest)
    else if a = k then Memory.listCell a v rest
    else (k, w) :: Memory.write rest a v

/-- The canonical form from address `lo` on: addresses rise strictly, stay below 256, and no entry
holds the reset byte. -/
def Memory.wfFrom : Nat → Memory → Bool
  | _, [] => true
  | lo, (k, v) :: rest =>
    decide (lo ≤ k) && decide (k < Config.memSize) && decide (v ≠ Config.memReset)
      && Memory.wfFrom (k + 1) rest

/-- The canonical form of a memory. -/
def Memory.wf (m : Memory) : Bool := Memory.wfFrom 0 m

/-- `MemRead(a, 1)` (R10, R62). -/
def memRead (s : State) (a : Nat) : Except Condition Byte :=
  if a < Config.memSize then .ok (s.mem.read a) else .error (.outOfRangeAddress a)

/-- `MemWrite(a, 1, v)` (R10, R63). -/
def memWrite (s : State) (a : Nat) (v : Byte) : Except Condition State :=
  if a < Config.memSize then .ok (s.withMem (s.mem.write a v)) else .error (.outOfRangeAddress a)

/-! ### General registers -/

/-- `x[i]` (R9): the byte in Ri; an index above 7 raises, it is not masked (R23). -/
def readReg (s : State) (i : Nat) : Except Condition Byte :=
  if h : i < Config.numGpr then .ok s.regs[i] else .error (.outOfRangeRegister i)

/-- `x[i] <- v` (R9): Ri becomes `v mod 256` (R24); an index above 7 raises. -/
def writeReg (s : State) (i : Nat) (v : Nat) : Except Condition State :=
  if h : i < Config.numGpr then .ok (s.withRegs (s.regs.set i (BitVec.ofNat 8 v) h))
  else .error (.outOfRangeRegister i)

/-! ### Streams, status and pc -/

/-- `emit(v)`: appends to the display stream, never refused (R11, R152). -/
def emit (s : State) (v : Byte) : State := s.withOut (s.out ++ [v])

/-- `diag(UnknownInstruction(pc, op))`: appends to the diagnostic stream (R11, R39). -/
def report (s : State) (op : Byte) : State := s.withDiag (s.diag ++ [⟨s.pc, op⟩])

/-- `halt` (R11): status becomes Halted. -/
def halt (s : State) : State := s.withStatus .halted

/-- The sequential advance `pc + len` (R115). After a fetch that succeeded it does not exceed 256 and
so is not reduced (R119); entry 5 says what it is elsewhere. -/
def advance (s : State) (len : Nat) : State := s.withPc (s.pc + BitVec.ofNat 9 len)

/-- A jump `pc <- t`, t a byte, 0..255 (R115). -/
def jump (s : State) (t : Byte) : State := s.withPc (t.setWidth 9)

/-! ### Fetch -/

/-- The three unconditional reads of every step, at pc, pc+1 and pc+2, the addresses not reduced
(R111); the first that is out of range is the one that raises (R206 steps 1 to 3). -/
def fetch (s : State) : Except Condition Fetched := do
  let op ← memRead s s.pc.toNat
  let a ← memRead s (s.pc.toNat + 1)
  let b ← memRead s (s.pc.toNat + 2)
  return ⟨op, a, b⟩

/-! ### Stack addresses -/

/-- The address a push uses: `(SP - 1) mod 256` (R30). -/
def pushAddress (s : State) : Byte := s.sp - 1#8

/-- Push a byte: write it at the push address, which becomes SP (R30, R160). -/
def pushByte (s : State) (v : Byte) : Except Condition State := do
  let t ← memWrite s (pushAddress s).toNat v
  return t.withSp (pushAddress s)

/-- The address a pop uses: SP before the increment (R31). -/
def popAddress (s : State) : Byte := s.sp

/-- SP after a pop: `(SP + 1) mod 256` (R31). -/
def dropByte (s : State) : State := s.withSp (s.sp + 1#8)

/-! ### Placing bytes in memory from outside a run -/

/-- Three bytes stored at `a`, `a + 1`, `a + 2`, a byte beyond the last cell dropped. -/
def placeBytes (m : Memory) (a : Nat) (f : Fetched) : Memory :=
  let put (m : Memory) (x : Nat) (v : Byte) : Memory := if x < Config.memSize then m.write x v else m
  put (put (put m a f.op) (a + 1) f.a) (a + 2) f.b

end Sys2Proof.Machine
end

