-- ==== Sys2Proof/Machine/Flags.lean ====
section
/-! DEFINITION. The flag computation: CMP is the only writer of FL (10_state.md R32, 41_alu.md R134),
and FL as a byte (R33). -/

namespace Sys2Proof.Machine

/-- The flags of an unsigned comparison: exactly one is set (R134). -/
def compareFlags (va vb : Byte) : Flags :=
  ⟨decide (va.toNat = vb.toNat), decide (va.toNat < vb.toNat), decide (va.toNat > vb.toNat)⟩

/-- FL as a byte: E bit 0, G bit 1, L bit 2, bits 7..3 zero (R33; the spec's D7, unobservable). -/
def Flags.toByte (f : Flags) : Byte :=
  (if f.e then 1#8 else 0#8) ||| (if f.g then 2#8 else 0#8) ||| (if f.l then 4#8 else 0#8)

/-- How many flags are set. -/
def Flags.count (f : Flags) : Nat := f.e.toNat + f.l.toNat + f.g.toNat

/-- At most one flag is set: true in every reachable state (R32). -/
def Flags.atMostOne (f : Flags) : Bool := decide (f.count ≤ 1)

end Sys2Proof.Machine
end

