-- ==== Sys2Proof/Machine/Operands.lean ====
section
/-! DEFINITION. The operand forms of 30_encoding.md R89: register index (read, written), immediate.
An operand byte an instruction does not use is never looked at (R23, R95). -/

namespace Sys2Proof.Machine

/-- The register an index operand names, read (R89, R9). -/
def readOperand (s : State) (x : Byte) : Except Condition Byte := readReg s x.toNat

/-- The register an index operand names, written with `v mod 256` (R89, R24). -/
def writeOperand (s : State) (x : Byte) (v : Nat) : Except Condition State := writeReg s x.toNat v

/-- The immediate: operand B exactly, no extension, no scaling (R90). -/
def immediate (b : Byte) : Nat := b.toNat

/-- The two source registers of an ALU operation, A checked before B (R206 steps 5 and 6). -/
def readOperands (s : State) (a b : Byte) : Except Condition (Byte × Byte) := do
  let va ← readOperand s a
  let vb ← readOperand s b
  return (va, vb)

/-- The index operands an instruction uses when the Equal flag is `e`, in the order they are checked
(R206 steps 5 and 6): JEQ and JNE use theirs only when taken (R176, R177). -/
def usedIndices (i : Instr) (e : Bool) : List Byte :=
  match i with
  | .ldi a _ => [a]
  | .prn a => [a]
  | .hlt => []
  | .add a b => [a, b]
  | .mul a b => [a, b]
  | .push a => [a]
  | .pop a => [a]
  | .cmp a b => [a, b]
  | .jmp a => [a]
  | .jeq a => if e then [a] else []
  | .jne a => if e then [] else [a]
  | .nop => []

end Sys2Proof.Machine
end

