-- ==== Sys2Proof/Machine/Alu.lean ====
section
/-! DEFINITION. The ALU and the three instructions that drive it: ADD, MUL, CMP (41_alu.md). -/

namespace Sys2Proof.Machine

/-- The ALU (R130): reads the registers of both indices, then writes register A (add, multiply) or FL
(compare) by the operation select; another select raises (R131). The indices are checked before the
select (R206). It writes neither pc, SP nor memory. -/
def alu (select a b : Byte) (s : State) : Except Condition State := do
  let (va, vb) ← readOperands s a b
  if select = Config.selectAdd then writeOperand s a (va.toNat + vb.toNat)
  else if select = Config.selectMul then writeOperand s a (va.toNat * vb.toNat)
  else if select = Config.selectCmp then return s.withFl (compareFlags va vb)
  else throw (.unsupportedOperation select)

/-- An ALU operation and the advance of its 3-byte instruction. -/
def aluStep (select a b : Byte) (s : State) : Except Condition State := do
  let t ← alu select a b s
  return advance t 3

/-- ADD (R132): `x[a] <- (x[a] + x[b]) mod 256`, pc + 3. -/
def execAdd (a b : Byte) (s : State) : Host.Outcome State Fault Refusal :=
  commit s (aluStep Config.selectAdd a b s)

/-- MUL (R133): `x[a] <- (x[a] * x[b]) mod 256`, pc + 3. -/
def execMul (a b : Byte) (s : State) : Host.Outcome State Fault Refusal :=
  commit s (aluStep Config.selectMul a b s)

/-- CMP (R134): all three flags from the unsigned comparison of `x[a]` with `x[b]`, pc + 3. -/
def execCmp (a b : Byte) (s : State) : Host.Outcome State Fault Refusal :=
  commit s (aluStep Config.selectCmp a b s)

end Sys2Proof.Machine
end

