-- ==== Sys2Proof/Machine/Branch.lean ====
section
/-! DEFINITION. JMP, JEQ and JNE (44_branch.md). -/

namespace Sys2Proof.Machine

/-- Jump to the address in register `a` (R175). -/
def jumpTo (a : Byte) (s : State) : Except Condition State := do
  let t ← readOperand s a
  return jump s t

/-- Jump if `taken`, else pc + 2; the register is read, and its index checked, only when taken (R176,
R177; the spec's D22, entry 15). -/
def branchIf (taken : Bool) (a : Byte) (s : State) : Except Condition State :=
  if taken then jumpTo a s else .ok (advance s 2)

/-- JMP (R175). -/
def execJmp (a : Byte) (s : State) : Host.Outcome State Fault Refusal :=
  commit s (jumpTo a s)

/-- JEQ (R176): taken when the Equal flag is set. -/
def execJeq (a : Byte) (s : State) : Host.Outcome State Fault Refusal :=
  commit s (branchIf s.fl.e a s)

/-- JNE (R177): taken when the Equal flag is clear. -/
def execJne (a : Byte) (s : State) : Host.Outcome State Fault Refusal :=
  commit s (branchIf (!s.fl.e) a s)

end Sys2Proof.Machine
end

