-- ==== Sys2Proof/Machine/Control.lean ====
section
/-! DEFINITION. HLT, NOP and the unknown opcode (45_control.md). -/

namespace Sys2Proof.Machine

/-- HLT (R190): status becomes Halted; pc keeps the address of the HLT. -/
def execHlt (s : State) : Host.Outcome State Fault Refusal :=
  commit s (.ok (halt s))

/-- NOP (R191): pc + 1. -/
def execNop (s : State) : Host.Outcome State Fault Refusal :=
  commit s (.ok (advance s 1))

/-- An unknown opcode (R192): reported with pc and the byte, then skipped as one byte whatever its
bits; non-fatal. -/
def execUnknown (op : Byte) (s : State) : Host.Outcome State Fault Refusal :=
  commit s (.ok (advance (report s op) 1))

end Sys2Proof.Machine
end

