-- ==== Sys2Proof/Machine/Load.lean ====
section
/-! DEFINITION. LDI and PRN (42_load_and_output.md). -/

namespace Sys2Proof.Machine

/-- LDI (R150): `x[a] <- b`, pc + 3. -/
def execLdi (a b : Byte) (s : State) : Host.Outcome State Fault Refusal :=
  commit s do
    let t ← writeOperand s a (immediate b)
    return advance t 3

/-- PRN (R151): emit `x[a]`, pc + 2. -/
def execPrn (a : Byte) (s : State) : Host.Outcome State Fault Refusal :=
  commit s do
    let v ← readOperand s a
    return advance (emit s v) 2

end Sys2Proof.Machine
end

