-- ==== Sys2Proof/Machine/Stack.lean ====
section
/-! DEFINITION. PUSH and POP (43_stack.md). -/

namespace Sys2Proof.Machine

/-- PUSH (R160): read `x[a]`, write it at `(SP - 1) mod 256`, which becomes SP, pc + 2. -/
def execPush (a : Byte) (s : State) : Host.Outcome State Fault Refusal :=
  commit s do
    let v ← readOperand s a
    let t ← pushByte s v
    return advance t 2

/-- POP (R161): read the byte at SP, write `x[a]`, `SP <- (SP + 1) mod 256`, pc + 2. The cell read
is not written (the spec's C4). -/
def execPop (a : Byte) (s : State) : Host.Outcome State Fault Refusal :=
  commit s do
    let v ← memRead s (popAddress s).toNat
    let t ← writeOperand s a v.toNat
    return advance (dropByte t) 2

end Sys2Proof.Machine
end

