-- ==== Sys2Proof/Machine/Step.lean ====
section
/-! DEFINITION. One step of the engine (40_execution_cycle.md R117) and the placing of an instruction
where the next fetch reads it. -/

namespace Sys2Proof.Machine

/-- What runs after a fetch: the decoded instruction, or the unknown opcode's rule (R112, R113). -/
def runDecoded (d : Decoded) (s : State) : Host.Outcome State Fault Refusal :=
  match d with
  | .instr i => exec i s
  | .unknown op => execUnknown op s

/-- One step (R117): taken only when Running (R110); fetch, decode, execute, commit; a fetch that
raises commits nothing and enters Faulted (R114). From Halted and Faulted no step exists (entry 2). -/
def step (s : State) : Host.Outcome State Fault Refusal :=
  match s.status with
  | .running =>
    match fetch s with
    | .ok f => runDecoded (decode f) s
    | .error c => commit s (.error c)
  | .halted => .fault .noStepFromHalted
  | .faulted _ => .fault .noStepFromFaulted

/-- `s` with an opcode-table word stored at pc, pc+1 and pc+2, in status Running. It stands for a
load that the host makes before a run (R232, R233; entry 6). -/
def State.withFetchWord (s : State) (nbits w : Nat) : State :=
  (s.withMem (placeBytes s.mem s.pc.toNat (tableBytes nbits w))).withStatus .running

end Sys2Proof.Machine
end

