-- ==== Sys2Proof/Machine/Ports.lean ====
section
/-! DEFINITION. The engine's interfaces to the host (10_state.md R41): load port, run control, status,
display, and the optional trace (60_exceptions.md R215). No instruction step reads or writes anything
here; during a run the host has no move (40_execution_cycle.md R118). -/

namespace Sys2Proof.Machine

/-! ### Load port -/

/-- `LoadWrite(addr, byte)`: an address above 255 raises, and the record's pc is 0 (R36, R41, R233). -/
def loadWrite (s : State) (addr : Nat) (byte : Byte) : State :=
  match memWrite s addr byte with
  | .ok t => t
  | .error c => s.withStatus (.faulted (c.record 0#9))

/-- The loader's writes from address `i` on; a write that faults is the last (R233). -/
def loadFrom (s : State) (i : Nat) : List Byte → State
  | [] => s
  | byte :: rest =>
    match (loadWrite s i byte).status with
    | .running => loadFrom (loadWrite s i byte) (i + 1) rest
    | _ => loadWrite s i byte

/-- Reset, then the loader's writes of the image (R232 items 1 and 2). -/
def boot (image : List Byte) : State := loadFrom State.reset Config.loadAddr image

/-! ### Run control -/

/-- The `Step` transaction: one step while Running; after Halted or Faulted it does nothing (R235). -/
def hostStep (s : State) : State :=
  match step s with
  | .next t => t
  | .fault _ => s
  | .refused _ => s

/-- The `Run` transaction under an iteration budget (R116, R235, R237). -/
def runBudget : Nat → State → State
  | 0, s => s
  | k + 1, s => runBudget k (hostStep s)

/-- How a run stands when its budget is spent: clean end, fault, or not ended (R236, R237). -/
inductive RunEnd where
  | halted
  | faulted (r : FaultRecord)
  | notEnded
  deriving DecidableEq, Repr

/-- The end of a run, read from the final status (R236). -/
def runEnd (s : State) : RunEnd :=
  match s.status with
  | .running => .notEnded
  | .halted => .halted
  | .faulted r => .faulted r

/-- The observation of a run: final status, `out`, final state (R236). -/
structure Observation where
  status : Status
  out : List Byte
  final : State
  deriving DecidableEq, Repr

/-- The observation of the run of `image` under a budget. -/
def observe (budget : Nat) (image : List Byte) : Observation :=
  ⟨(runBudget budget (boot image)).status, (runBudget budget (boot image)).out,
    runBudget budget (boot image)⟩

/-! ### Status port -/

/-- STATUS: 0 Running, 1 Halted, 2 Faulted; 3 never occurs (R40). -/
def statusRegister (s : State) : BitVec 2 :=
  match s.status with
  | .running => 0#2
  | .halted => 1#2
  | .faulted _ => 2#2

/-- The code of a cause (R205). -/
def Cause.code : Cause → Nat
  | .outOfRangeAddress => 1
  | .outOfRangeRegister => 2
  | .unsupportedOperation => 3

/-- FAULT: the record, none unless the status is Faulted (R36, R40). -/
def faultRegister (s : State) : Option FaultRecord :=
  match s.status with
  | .running => none
  | .halted => none
  | .faulted r => some r

/-- The cause code in FAULT, 0 when there is no record (R205). -/
def faultCode (s : State) : Nat :=
  match faultRegister s with
  | none => 0
  | some r => r.cause.code

/-! ### Display and trace -/

/-- What the display sink shows: each entry as an unsigned decimal integer (R38, R152). -/
def displayed (s : State) : List Nat := s.out.map BitVec.toNat

/-- A trace record: pc, the three bytes, R0 to R7; neither FL nor SP (R215, R32). -/
structure TraceRecord where
  pc : PcWord
  bytes : Fetched
  regs : Vector Byte Config.numGpr
  deriving DecidableEq, Repr

/-- The record the trace port may send before a step; none where the bytes cannot be read (R215). It
is computed from the state and changes nothing. -/
def traceRecord (s : State) : Option TraceRecord :=
  match fetch s with
  | .ok f => some ⟨s.pc, f, s.regs⟩
  | .error _ => none

/-! ### The host's session -/

/-- The engine and what the host knows of it: whether the first step has been taken (R41; entry 7). -/
structure Session where
  engine : State
  started : Bool
  deriving DecidableEq, Repr

/-- The transactions of the load port and of run control (R41). -/
inductive Request where
  | loadWrite (addr : Nat) (byte : Byte)
  | step
  | run (budget : Nat)
  | reset
  deriving DecidableEq, Repr

/-- The engine has no way to take a transaction that R41 does not make legal (entry 7). -/
inductive Reply where
  | accepted (x : Session)
  | notLegal
  deriving DecidableEq, Repr

/-- The session after reset (R42, R230). -/
def Session.reset : Session := ⟨State.reset, false⟩

/-- Whether steps are taken from a state (R110). -/
def isRunning (s : State) : Bool := decide (s.status = .running)

/-- One transaction (R41, R233, R235). -/
def Session.serve (x : Session) : Request → Reply
  | .loadWrite addr byte =>
    if !x.started && isRunning x.engine then .accepted ⟨loadWrite x.engine addr byte, false⟩
    else .notLegal
  | .step => .accepted ⟨hostStep x.engine, x.started || isRunning x.engine⟩
  | .run budget =>
    .accepted ⟨runBudget budget x.engine, x.started || (decide (0 < budget) && isRunning x.engine)⟩
  | .reset => .accepted Session.reset

end Sys2Proof.Machine
end

