-- ==== Sys2Proof/WellFormed.lean ====
section
/-! DEFINITION. What a well-formed instruction and a well-formed program image are.
The decoder and the machine do not ask for it: an ill-formed index decodes and raises when used
(30_encoding.md R94), and an image that is too long faults in the loader (70_reset_and_hazards.md R233). -/

namespace Sys2Proof

/-- The operand bytes that are register indices, in operand order (the table of R89). -/
def Instr.indexOperands : Instr → List Byte
  | .ldi a _ => [a]
  | .prn a => [a]
  | .hlt => []
  | .add a b => [a, b]
  | .mul a b => [a, b]
  | .push a => [a]
  | .pop a => [a]
  | .cmp a b => [a, b]
  | .jmp a => [a]
  | .jeq a => [a]
  | .jne a => [a]
  | .nop => []

/-- Every register index names one of R0..R7 (R23, R94). -/
def Instr.wf (i : Instr) : Bool := i.indexOperands.all fun x => decide (x.toNat < Config.numGpr)

/-- An image fits the memory from the load address on (R99, R233). -/
def imageWf (p : List Byte) : Bool := decide (Config.loadAddr + p.length ≤ Config.memSize)

end Sys2Proof
end

