-- ==== Sys2Proof/Safety.lean ====
section
/-! DEFINITION. The terms the statements use: the invariant of the engine, the condition a step must
raise, repeated execution. Only HLT is a clean end of a run (70_reset_and_hazards.md R236). -/

namespace Sys2Proof.Machine

/-! ### What the next step meets -/

/-- The three bytes at pc, pc+1, pc+2, where they exist. -/
def bytesAt (s : State) : Fetched :=
  ⟨s.mem.read s.pc.toNat, s.mem.read (s.pc.toNat + 1), s.mem.read (s.pc.toNat + 2)⟩

/-- What the decoder makes of them. -/
def decodedAt (s : State) : Decoded := decode (bytesAt s)

/-- All three bytes of the fetch exist: pc is at most 253 (R111, R120). -/
abbrev Fetchable (s : State) : Prop := s.pc.toNat + 2 < Config.memSize

/-- The states in which the spec executes an instruction: Running (R110), and the fetch succeeds
(R111, R114). -/
abbrev Executing (s : State) : Prop := s.status = .running ∧ Fetchable s

/-- The first index among those used that names no register. -/
def badIndex : List Byte → Option Condition
  | [] => none
  | x :: rest => if x.toNat < Config.numGpr then badIndex rest else some (.outOfRangeRegister x.toNat)

/-- The condition the next step must raise, by the priority list of R206: the fetch at pc, pc+1,
pc+2, then the indices the decoded instruction uses, A before B; an unknown opcode raises none. -/
def conditionAt (s : State) : Option Condition :=
  if Config.memSize ≤ s.pc.toNat then some (.outOfRangeAddress s.pc.toNat)
  else if Config.memSize ≤ s.pc.toNat + 1 then some (.outOfRangeAddress (s.pc.toNat + 1))
  else if Config.memSize ≤ s.pc.toNat + 2 then some (.outOfRangeAddress (s.pc.toNat + 2))
  else
    match decodedAt s with
    | .instr i => badIndex (usedIndices i s.fl.e)
    | .unknown _ => none

/-! ### The invariant -/

/-- What the status says of the rest of the state: Halted stands at an HLT that could be fetched
(R190, R120); a fault record names the pc it stands at and a value its cause can have (R36, R205,
R207); UnsupportedOperation is never recorded (R203). -/
def statusWf (s : State) : Bool :=
  match s.status with
  | .running => true
  | .halted => decide (Fetchable s) && decide (s.mem.read s.pc.toNat = 0x01#8)
  | .faulted r =>
    decide (r.pc = s.pc) &&
      match r.cause with
      | .outOfRangeAddress => decide (Config.memSize ≤ r.value)
      | .outOfRangeRegister => decide (Config.numGpr ≤ r.value) && decide (r.value < 256)
      | .unsupportedOperation => false

/-- The invariant of the engine: memory in its canonical form, pc in 0..256 (R119), at most one flag
set (R32), and a status that fits the state. -/
abbrev Inv (s : State) : Prop :=
  s.mem.wf = true ∧ s.pc.toNat ≤ 256 ∧ s.fl.atMostOne = true ∧ statusWf s = true

/-! ### Repetition -/

/-- `n` executions of one instruction, stopping at the first that is no next state. -/
def execTimes : Nat → Instr → State → Host.Outcome State Fault Refusal
  | 0, _, s => .next s
  | n + 1, i, s =>
    match exec i s with
    | .next t => execTimes n i t
    | .fault r => .fault r
    | .refused r => .refused r

/-- The state with the flags L and G replaced and E kept. -/
def withLessGreater (l g : Bool) (s : State) : State := s.withFl ⟨s.fl.e, l, g⟩

end Sys2Proof.Machine
end

