-- ==== Sys2Proof/Certificates/Slice0/Obligations.lean ====
section
/-! DEFINITION. The statements for the provers. Each docstring names the rule of the spec it
formalises; `Executing s` is the spec's own condition for executing an instruction (Running, R110, and
a fetch that succeeds, R111). A faulted state is written out whole where a rule says that nothing is
written; R207 warns that a claim about the hardware should read only its fault record (the spec's D8,
entry 12). -/

open Sys2Proof Sys2Proof.Machine

/-! ### One statement per instruction: result, frame, raise -/

/-- R150, LDI: register A becomes the immediate, pc + 3, nothing else changes; an index above 7 raises
and nothing is written. -/
def Obligations.LdiLoadsImmediate : Prop :=
  ∀ (a b : Byte) (s : State), Executing s →
    decode ⟨0x82#8, a, b⟩ = .instr (.ldi a b) ∧
    (∀ h : a.toNat < 8, exec (.ldi a b) s =
      .next { s with regs := s.regs.set a.toNat b h, pc := s.pc + 3#9 }) ∧
    (7 < a.toNat → exec (.ldi a b) s =
      .next { s with status := .faulted ⟨.outOfRangeRegister, s.pc, a.toNat⟩ })

/-- R151, PRN: the register's byte is appended to `out`, pc + 2, nothing else changes; an index above 7
raises and nothing is emitted. -/
def Obligations.PrnEmitsRegister : Prop :=
  ∀ (a : Byte) (s : State), Executing s →
    (∀ b : Byte, decode ⟨0x47#8, a, b⟩ = .instr (.prn a)) ∧
    (∀ h : a.toNat < 8, exec (.prn a) s =
      .next { s with out := s.out ++ [s.regs[a.toNat]], pc := s.pc + 2#9 }) ∧
    (7 < a.toNat → exec (.prn a) s =
      .next { s with status := .faulted ⟨.outOfRangeRegister, s.pc, a.toNat⟩ })

/-- R132, ADD: register A becomes the sum modulo 256, pc + 3, FL and all else unchanged; index A is
checked first, then index B, and nothing is written when either raises. -/
def Obligations.AddWritesSumModulo256 : Prop :=
  ∀ (a b : Byte) (s : State), Executing s →
    decode ⟨0xA0#8, a, b⟩ = .instr (.add a b) ∧
    (∀ (ha : a.toNat < 8) (hb : b.toNat < 8), exec (.add a b) s =
      .next { s with
        regs := s.regs.set a.toNat
          (BitVec.ofNat 8 ((s.regs[a.toNat].toNat + s.regs[b.toNat].toNat) % 256)) ha,
        pc := s.pc + 3#9 }) ∧
    (7 < a.toNat → exec (.add a b) s =
      .next { s with status := .faulted ⟨.outOfRangeRegister, s.pc, a.toNat⟩ }) ∧
    (a.toNat < 8 → 7 < b.toNat → exec (.add a b) s =
      .next { s with status := .faulted ⟨.outOfRangeRegister, s.pc, b.toNat⟩ })

/-- R133, MUL: register A becomes the low 8 bits of the unsigned product, pc + 3, FL and all else
unchanged; index A is checked first, then index B, and nothing is written when either raises. -/
def Obligations.MulWritesLowProduct : Prop :=
  ∀ (a b : Byte) (s : State), Executing s →
    decode ⟨0xA2#8, a, b⟩ = .instr (.mul a b) ∧
    (∀ (ha : a.toNat < 8) (hb : b.toNat < 8), exec (.mul a b) s =
      .next { s with
        regs := s.regs.set a.toNat
          (BitVec.ofNat 8 ((s.regs[a.toNat].toNat * s.regs[b.toNat].toNat) % 256)) ha,
        pc := s.pc + 3#9 }) ∧
    (7 < a.toNat → exec (.mul a b) s =
      .next { s with status := .faulted ⟨.outOfRangeRegister, s.pc, a.toNat⟩ }) ∧
    (a.toNat < 8 → 7 < b.toNat → exec (.mul a b) s =
      .next { s with status := .faulted ⟨.outOfRangeRegister, s.pc, b.toNat⟩ })

/-- R134, CMP: all three flags are written from the unsigned comparison, whatever FL held; exactly one
is set; pc + 3; no register and no memory is written; index A is checked first, then index B, and FL
is unchanged when either raises. -/
def Obligations.CmpWritesAllThreeFlags : Prop :=
  ∀ (a b : Byte) (s : State), Executing s →
    decode ⟨0xA7#8, a, b⟩ = .instr (.cmp a b) ∧
    (∀ (_ : a.toNat < 8) (_ : b.toNat < 8), ∃ f : Flags,
      exec (.cmp a b) s = .next { s with fl := f, pc := s.pc + 3#9 } ∧
      (f.e = true ↔ s.regs[a.toNat].toNat = s.regs[b.toNat].toNat) ∧
      (f.l = true ↔ s.regs[a.toNat].toNat < s.regs[b.toNat].toNat) ∧
      (f.g = true ↔ s.regs[a.toNat].toNat > s.regs[b.toNat].toNat) ∧
      f.e.toNat + f.l.toNat + f.g.toNat = 1) ∧
    (7 < a.toNat → exec (.cmp a b) s =
      .next { s with status := .faulted ⟨.outOfRangeRegister, s.pc, a.toNat⟩ }) ∧
    (a.toNat < 8 → 7 < b.toNat → exec (.cmp a b) s =
      .next { s with status := .faulted ⟨.outOfRangeRegister, s.pc, b.toNat⟩ })

/-- R160, PUSH: SP becomes (SP - 1) mod 256, the register's byte is written there, pc + 2; every other
cell reads as before and no other field changes; an index above 7 raises with SP and memory unchanged
(that last clause is the spec's decision D8, entry 12). -/
def Obligations.PushWritesBelowSp : Prop :=
  ∀ (a : Byte) (s : State), Executing s → s.mem.wf = true →
    (∀ b : Byte, decode ⟨0x45#8, a, b⟩ = .instr (.push a)) ∧
    (∀ _ : a.toNat < 8, ∃ m : Memory,
      exec (.push a) s = .next { s with mem := m, sp := s.sp - 1#8, pc := s.pc + 2#9 } ∧
      m.read ((s.sp.toNat + 255) % 256) = s.regs[a.toNat] ∧
      ∀ x : Nat, x ≠ (s.sp.toNat + 255) % 256 → m.read x = s.mem.read x) ∧
    (7 < a.toNat → exec (.push a) s =
      .next { s with status := .faulted ⟨.outOfRangeRegister, s.pc, a.toNat⟩ })

/-- R161, POP: register A becomes the byte at SP, SP becomes (SP + 1) mod 256, pc + 2; no cell is
written and nothing else changes; an index above 7 raises with register, SP and pc unchanged. -/
def Obligations.PopReadsAtSp : Prop :=
  ∀ (a : Byte) (s : State), Executing s →
    (∀ b : Byte, decode ⟨0x46#8, a, b⟩ = .instr (.pop a)) ∧
    (∀ h : a.toNat < 8, exec (.pop a) s =
      .next { s with
        regs := s.regs.set a.toNat (s.mem.read s.sp.toNat) h,
        sp := BitVec.ofNat 8 ((s.sp.toNat + 1) % 256),
        pc := s.pc + 2#9 }) ∧
    (7 < a.toNat → exec (.pop a) s =
      .next { s with status := .faulted ⟨.outOfRangeRegister, s.pc, a.toNat⟩ })

/-- R175, JMP: pc becomes the register's byte and nothing else changes; an index above 7 raises with pc
unchanged; a target of 254 or 255 is accepted and the next step faults; a JMP to its own address
loops forever. -/
def Obligations.JmpJumpsToRegister : Prop :=
  ∀ (a : Byte) (s : State), Executing s →
    (∀ b : Byte, decode ⟨0x54#8, a, b⟩ = .instr (.jmp a)) ∧
    (∀ _ : a.toNat < 8, ∃ p : PcWord,
      exec (.jmp a) s = .next { s with pc := p } ∧ p.toNat = s.regs[a.toNat].toNat ∧
      (254 ≤ s.regs[a.toNat].toNat → ∃ u, step { s with pc := p } = .next u ∧
        u.status = .faulted ⟨.outOfRangeAddress, p, 256⟩) ∧
      (decodedAt s = .instr (.jmp a) → s.regs[a.toNat].toNat = s.pc.toNat →
        ∀ k : Nat, runBudget k s = s)) ∧
    (7 < a.toNat → exec (.jmp a) s =
      .next { s with status := .faulted ⟨.outOfRangeRegister, s.pc, a.toNat⟩ })

/-- R176, JEQ: taken when E is set, to the register's byte; not taken it advances by 2 and does not look
at its index (the spec's decision D22, entry 15); taken with an index above 7 it raises. -/
def Obligations.JeqJumpsWhenEqual : Prop :=
  ∀ (a : Byte) (s : State), Executing s →
    (∀ b : Byte, decode ⟨0x55#8, a, b⟩ = .instr (.jeq a)) ∧
    (s.fl.e = true → ∀ _ : a.toNat < 8, ∃ p : PcWord,
      exec (.jeq a) s = .next { s with pc := p } ∧ p.toNat = s.regs[a.toNat].toNat) ∧
    (s.fl.e = true → 7 < a.toNat → exec (.jeq a) s =
      .next { s with status := .faulted ⟨.outOfRangeRegister, s.pc, a.toNat⟩ }) ∧
    (s.fl.e = false → exec (.jeq a) s = .next { s with pc := s.pc + 2#9 })

/-- R177, JNE: taken when E is clear, to the register's byte; not taken it advances by 2 and does not
look at its index (the spec's decision D22, entry 15); taken with an index above 7 it raises. -/
def Obligations.JneJumpsWhenNotEqual : Prop :=
  ∀ (a : Byte) (s : State), Executing s →
    (∀ b : Byte, decode ⟨0x56#8, a, b⟩ = .instr (.jne a)) ∧
    (s.fl.e = false → ∀ _ : a.toNat < 8, ∃ p : PcWord,
      exec (.jne a) s = .next { s with pc := p } ∧ p.toNat = s.regs[a.toNat].toNat) ∧
    (s.fl.e = false → 7 < a.toNat → exec (.jne a) s =
      .next { s with status := .faulted ⟨.outOfRangeRegister, s.pc, a.toNat⟩ }) ∧
    (s.fl.e = true → exec (.jne a) s = .next { s with pc := s.pc + 2#9 })

/-- R190, HLT: status becomes Halted, nothing else is written, pc included; at 254 and 255 the pre-fetch
raises and the engine does not halt; from Halted there is no step. -/
def Obligations.HltHaltsInPlace : Prop :=
  ∀ s : State,
    (∀ a b : Byte, decode ⟨0x01#8, a, b⟩ = .instr .hlt) ∧
    (Executing s → exec .hlt s = .next { s with status := .halted }) ∧
    (s.status = .running → s.pc = 254#9 ∨ s.pc = 255#9 → s.mem.read s.pc.toNat = 0x01#8 →
      step s = .next { s with status := .faulted ⟨.outOfRangeAddress, s.pc, 256⟩ }) ∧
    (s.status = .halted → ¬ ∃ t, step s = .next t)

/-- R191, NOP: pc + 1 and nothing else; at 254 and 255 the pre-fetch raises. -/
def Obligations.NopOnlyAdvances : Prop :=
  ∀ s : State,
    (∀ a b : Byte, decode ⟨0x00#8, a, b⟩ = .instr .nop) ∧
    (Executing s → exec .nop s = .next { s with pc := s.pc + 1#9 }) ∧
    (s.status = .running → s.pc = 254#9 ∨ s.pc = 255#9 → s.mem.read s.pc.toNat = 0x00#8 →
      step s = .next { s with status := .faulted ⟨.outOfRangeAddress, s.pc, 256⟩ })

/-- R192, an unknown opcode: its event is appended to `diag`, pc + 1 whatever its bits, nothing else is
written and status stays Running; at 254 and 255 the pre-fetch raises. -/
def Obligations.UnknownOpcodeReportedAndSkipped : Prop :=
  ∀ (s : State) (op : Byte), s.status = .running → s.mem.read s.pc.toNat = op →
    op ∉ [0x82#8, 0x47#8, 0x01#8, 0xA0#8, 0xA2#8, 0x45#8, 0x46#8, 0xA7#8, 0x54#8, 0x55#8, 0x56#8,
      0x00#8] →
    (Fetchable s → step s =
      .next { s with diag := s.diag ++ [⟨s.pc, op⟩], pc := s.pc + 1#9 }) ∧
    (s.pc = 254#9 ∨ s.pc = 255#9 →
      step s = .next { s with status := .faulted ⟨.outOfRangeAddress, s.pc, 256⟩ })

/-! ### The step -/

/-- R113, R117: where the three bytes exist, a step is the execution of the instruction they decode to,
and nothing around it. -/
def Obligations.StepRunsDecodedInstruction : Prop :=
  ∀ (s : State) (i : Instr), Executing s →
    decode ⟨s.mem.read s.pc.toNat, s.mem.read (s.pc.toNat + 1), s.mem.read (s.pc.toNat + 2)⟩
      = .instr i →
    step s = exec i s

/-- R110: a step is taken only when status is Running; a run is the sequence of steps until none
exists or the budget ends. -/
def Obligations.StepExactlyWhenRunning : Prop :=
  (∀ s : State, (∃ t, step s = .next t) ↔ s.status = .running) ∧
  (∀ (k : Nat) (s t : State), step s = .next t → runBudget (k + 1) s = runBudget k t) ∧
  (∀ (k : Nat) (s : State), s.status ≠ .running → runBudget k s = s) ∧
  (∀ s : State, runBudget 0 s = s)

/-- R111, R120, R121: a step at 254, 255 or 256 raises OutOfRange(address, 256) whatever the bytes there
hold, and at a pc above 256 the address is pc itself; nothing is committed (the spec's decisions D3 to
D5 and D8, entries 10 to 12). -/
def Obligations.FetchPastTheTopFaults : Prop :=
  ∀ s : State, s.status = .running → 254 ≤ s.pc.toNat →
    (s.pc.toNat ≤ 256 → step s =
      .next { s with status := .faulted ⟨.outOfRangeAddress, s.pc, 256⟩ }) ∧
    (256 < s.pc.toNat → step s =
      .next { s with status := .faulted ⟨.outOfRangeAddress, s.pc, s.pc.toNat⟩ })

/-- R114, R207: a step that ends Faulted records its own pc and commits nothing (the spec's decision D8,
entry 12). -/
def Obligations.FaultingStepCommitsNothing : Prop :=
  ∀ (s t : State) (r : FaultRecord), step s = .next t → t.status = .faulted r →
    r.pc = s.pc ∧ t = { s with status := .faulted r }

/-- R202, R206: a step faults exactly when the priority list finds a condition, and records the first
that applies (the order is the spec's decision D10, entry 13). -/
def Obligations.FaultIsFirstConditionOfPriorityList : Prop :=
  ∀ (s t : State), step s = .next t → ∀ r : FaultRecord,
    t.status = .faulted r ↔ ∃ c : Condition, conditionAt s = some c ∧ r = c.record s.pc

/-- R131, R203, R206: the ALU raises UnsupportedOperation exactly for a select other than 0xA0, 0xA2, 0xA7
with both indices in range; an index out of range raises first, A before B, whatever the select (the
check order is the spec's decision D10, entry 13); the record's value is the select byte; no step
produces it. -/
def Obligations.UnsupportedOperationUnreachable : Prop :=
  (∀ (select x a b : Byte) (s : State),
    alu select a b s = .error (.unsupportedOperation x) ↔
      a.toNat < 8 ∧ b.toNat < 8 ∧ x = select ∧
        select ≠ 0xA0#8 ∧ select ≠ 0xA2#8 ∧ select ≠ 0xA7#8) ∧
  (∀ (select a b : Byte) (s : State), 8 ≤ a.toNat →
    alu select a b s = .error (.outOfRangeRegister a.toNat)) ∧
  (∀ (select a b : Byte) (s : State), a.toNat < 8 → 8 ≤ b.toNat →
    alu select a b s = .error (.outOfRangeRegister b.toNat)) ∧
  (∀ (select : Byte) (p : PcWord), (Condition.unsupportedOperation select).record p =
    ⟨.unsupportedOperation, p, select.toNat⟩) ∧
  (∀ (s t : State) (r : FaultRecord), step s = .next t → t.status = .faulted r →
    r.cause ≠ .unsupportedOperation)

/-- R35, R190, R216: only an HLT that was fetched leaves status Running for Halted, and that step changes
nothing but the status. -/
def Obligations.HaltedOnlyByHlt : Prop :=
  ∀ s t : State, step s = .next t → t.status = .halted →
    Fetchable s ∧ decodedAt s = .instr .hlt ∧ t = { s with status := .halted }

/-- R27, R115, R119: a step that stays Running moves pc to a register's byte when it is a taken jump, and
else forward by the length, on naturals and not reduced (the spec's decision D3, entry 10). -/
def Obligations.PcAdvancesByLengthOrJumps : Prop :=
  ∀ s t : State, step s = .next t → t.status = .running →
    (∃ (a : Byte) (_ : a.toNat < 8),
      (decodedAt s = .instr (.jmp a) ∨ (decodedAt s = .instr (.jeq a) ∧ s.fl.e = true) ∨
        (decodedAt s = .instr (.jne a) ∧ s.fl.e = false)) ∧
      t.pc.toNat = s.regs[a.toNat].toNat) ∨
    ((∀ a : Byte, decodedAt s ≠ .instr (.jmp a) ∧
        (decodedAt s = .instr (.jeq a) → s.fl.e = false) ∧
        (decodedAt s = .instr (.jne a) → s.fl.e = true)) ∧
      t.pc.toNat = s.pc.toNat + (decodedAt s).length)

/-! ### Frames over all instructions -/

/-- R32, R135: FL changes only through CMP, also when the instruction raises; what an unknown opcode
leaves is in UnknownOpcodeReportedAndSkipped. -/
def Obligations.FlagsWrittenOnlyByCmp : Prop :=
  ∀ (i : Instr) (s t : State), exec i s = .next t →
    t.fl = s.fl ∨ ∃ a b : Byte, i = .cmp a b ∧ t.fl.e.toNat + t.fl.l.toNat + t.fl.g.toNat = 1

/-- R32: L and G are never read: with other values of L and G a step leaves every other field, and E,
the same. -/
def Obligations.LessAndGreaterNeverRead : Prop :=
  ∀ (l g : Bool) (s t : State), step s = .next t →
    ∃ t' : State, step { s with fl := ⟨s.fl.e, l, g⟩ } = .next t' ∧
      { t' with fl := t.fl } = t ∧ t'.fl.e = t.fl.e

/-- R21: only LDI, ADD, MUL and POP write a general register, and only register A. -/
def Obligations.RegistersWrittenOnlyAtDestination : Prop :=
  ∀ (i : Instr) (s t : State) (j : Nat) (_ : j < 8), exec i s = .next t →
    (∀ a b : Byte, a.toNat = j → i ≠ .ldi a b ∧ i ≠ .add a b ∧ i ≠ .mul a b ∧ i ≠ .pop a) →
    t.regs[j] = s.regs[j]

/-- R22, R29 to R31: only PUSH and POP write SP, by one down or up modulo 256. -/
def Obligations.SpWrittenOnlyByPushAndPop : Prop :=
  ∀ (i : Instr) (s t : State), exec i s = .next t →
    t.sp = s.sp ∨
    (∃ a : Byte, i = .push a ∧ t.sp.toNat = (s.sp.toNat + 255) % 256) ∨
    (∃ a : Byte, i = .pop a ∧ t.sp.toNat = (s.sp.toNat + 1) % 256)

/-- R64: only PUSH writes memory, and only the cell at (SP - 1) mod 256; every other cell reads as
before. -/
def Obligations.MemoryWrittenOnlyByPush : Prop :=
  ∀ (i : Instr) (s t : State) (x : Nat), s.mem.wf = true → exec i s = .next t →
    (∀ a : Byte, i = .push a → x ≠ (pushAddress s).toNat) → t.mem.read x = s.mem.read x

/-- R38, R39, R152: only PRN appends to `out`, exactly its register's byte; no instruction of the map
writes `diag`. -/
def Obligations.DisplayWrittenOnlyByPrn : Prop :=
  ∀ (i : Instr) (s t : State), exec i s = .next t →
    t.diag = s.diag ∧
    (t.out = s.out ∨
      ∃ (a : Byte) (_ : a.toNat < 8), i = .prn a ∧ t.out = s.out ++ [s.regs[a.toNat]])

/-- R35, R205, R207: an instruction changes the status only by halting (HLT) or by a raised register
index, recorded with its pc; a Running step otherwise stays Running. -/
def Obligations.StatusWrittenOnlyByHltOrRaise : Prop :=
  ∀ (i : Instr) (s t : State), exec i s = .next t →
    t.status = s.status ∨ (i = .hlt ∧ t.status = .halted) ∨
    ∃ x : Byte, 7 < x.toNat ∧ x ∈ i.indexOperands ∧
      t.status = .faulted ⟨.outOfRangeRegister, s.pc, x.toNat⟩

/-! ### The invariant -/

/-- R42: the reset state meets the invariant. -/
def Obligations.ResetMeetsInvariant : Prop := Inv State.reset

/-- R32, R36, R119, R190: every step keeps the invariant: memory canonical, pc in 0..256, at most one
flag set, Halted at an HLT, a fault record that fits its cause and pc. -/
def Obligations.StepKeepsInvariant : Prop :=
  ∀ s t : State, Inv s → step s = .next t → Inv t

/-- R233, R36: whatever image the loader writes after reset, the invariant holds when the run starts. -/
def Obligations.BootMeetsInvariant : Prop := ∀ image : List Byte, Inv (boot image)

/-- R42, R230: every field of the reset state (FL's 0 is the spec's decision D6, entry 9; status Running
is entry 4). -/
def Obligations.ResetValues : Prop :=
  (∀ x : Nat, State.reset.mem.read x = 0#8) ∧
  (∀ (j : Nat) (_ : j < 8), State.reset.regs[j] = 0#8) ∧
  State.reset.sp = 0xF4#8 ∧ State.reset.fl = ⟨false, false, false⟩ ∧ State.reset.pc = 0#9 ∧
  State.reset.status = .running ∧ State.reset.out = [] ∧ State.reset.diag = []

/-! ### Memory and registers -/

/-- R62, R63: the read and write contracts of memory. -/
def Obligations.MemoryContracts : Prop :=
  ∀ (s : State) (a : Nat) (v : Byte), s.mem.wf = true →
    (255 < a → memRead s a = .error (.outOfRangeAddress a) ∧
      memWrite s a v = .error (.outOfRangeAddress a)) ∧
    (a ≤ 255 → memRead s a = .ok (s.mem.read a) ∧
      ∃ m : Memory, memWrite s a v = .ok { s with mem := m } ∧ m.read a = v ∧
        ∀ x : Nat, x ≠ a → m.read x = s.mem.read x)

/-- R9, R23, R24: the register primitives: an index above 7 raises, it is not masked; a write stores the
value modulo 256 in that register alone. -/
def Obligations.RegisterPrimitives : Prop :=
  ∀ (s : State) (i v : Nat),
    (7 < i → readReg s i = .error (.outOfRangeRegister i) ∧
      writeReg s i v = .error (.outOfRangeRegister i)) ∧
    (∀ _ : i < 8, readReg s i = .ok s.regs[i] ∧
      ∃ r : Vector Byte 8, writeReg s i v = .ok { s with regs := r } ∧ r[i].toNat = v % 256 ∧
        ∀ (j : Nat) (_ : j < 8), j ≠ i → r[j] = s.regs[j])

/-! ### Encoding -/

/-- R91, R92: the opcode map, row by row with its length, for all operand bytes; any other byte is
unknown. -/
def Obligations.OpcodeMapDecodes : Prop :=
  ∀ a b : Byte,
    (decode ⟨0b10000010#8, a, b⟩ = .instr (.ldi a b) ∧ (Instr.ldi a b).length = 3) ∧
    (decode ⟨0b01000111#8, a, b⟩ = .instr (.prn a) ∧ (Instr.prn a).length = 2) ∧
    (decode ⟨0b00000001#8, a, b⟩ = .instr .hlt ∧ Instr.hlt.length = 1) ∧
    (decode ⟨0b10100000#8, a, b⟩ = .instr (.add a b) ∧ (Instr.add a b).length = 3) ∧
    (decode ⟨0b10100010#8, a, b⟩ = .instr (.mul a b) ∧ (Instr.mul a b).length = 3) ∧
    (decode ⟨0b01000101#8, a, b⟩ = .instr (.push a) ∧ (Instr.push a).length = 2) ∧
    (decode ⟨0b01000110#8, a, b⟩ = .instr (.pop a) ∧ (Instr.pop a).length = 2) ∧
    (decode ⟨0b10100111#8, a, b⟩ = .instr (.cmp a b) ∧ (Instr.cmp a b).length = 3) ∧
    (decode ⟨0b01010100#8, a, b⟩ = .instr (.jmp a) ∧ (Instr.jmp a).length = 2) ∧
    (decode ⟨0b01010101#8, a, b⟩ = .instr (.jeq a) ∧ (Instr.jeq a).length = 2) ∧
    (decode ⟨0b01010110#8, a, b⟩ = .instr (.jne a) ∧ (Instr.jne a).length = 2) ∧
    (decode ⟨0b00000000#8, a, b⟩ = .instr .nop ∧ Instr.nop.length = 1) ∧
    ∀ op : Byte, op ∉ [0x82#8, 0x47#8, 0x01#8, 0xA0#8, 0xA2#8, 0x45#8, 0x46#8, 0xA7#8, 0x54#8,
      0x55#8, 0x56#8, 0x00#8] → decode ⟨op, a, b⟩ = .unknown op

/-- R93: the unknown opcodes are the listed ranges, 244 values, and their length is 1. -/
def Obligations.UnknownOpcodesAreTheListedRanges : Prop :=
  (∀ op a b : Byte, decode ⟨op, a, b⟩ = .unknown op ↔
    (0x02 ≤ op.toNat ∧ op.toNat ≤ 0x44) ∨ (0x48 ≤ op.toNat ∧ op.toNat ≤ 0x53) ∨
    (0x57 ≤ op.toNat ∧ op.toNat ≤ 0x81) ∨ (0x83 ≤ op.toNat ∧ op.toNat ≤ 0x9F) ∨
    op.toNat = 0xA1 ∨ (0xA3 ≤ op.toNat ∧ op.toNat ≤ 0xA6) ∨ 0xA8 ≤ op.toNat) ∧
  ((List.range 256).filter fun n =>
    decide (decode ⟨BitVec.ofNat 8 n, 0#8, 0#8⟩ = .unknown (BitVec.ofNat 8 n))).length = 244 ∧
  ∀ op : Byte, (Decoded.unknown op).length = 1

/-- R96: the length is known from the opcode byte alone. -/
def Obligations.LengthKnownFromOpcode : Prop :=
  ∀ f : Fetched, (decode f).length =
    if f.op ∈ [0x82#8, 0xA0#8, 0xA2#8, 0xA7#8] then 3
    else if f.op ∈ [0x47#8, 0x45#8, 0x46#8, 0x54#8, 0x55#8, 0x56#8] then 2
    else 1

/-- R85, R86, R89, R92: decoding what the encoder writes gives the instruction back, for every
instruction, every operand byte 0..255 and whatever follows it in memory; and bytes that decode to an
instruction begin with its encoding, so that it has one spelling. -/
def Obligations.DecodeAndEncodeAgree : Prop :=
  (∀ (i : Instr) (following : List Byte), decode (window (encode i ++ following)) = .instr i) ∧
  (∀ (f : Fetched) (i : Instr), decode f = .instr i →
    ∃ unused : List Byte, [f.op, f.a, f.b] = encode i ++ unused ∧ unused.length + i.length = 3)

/-- R95: bytes in unused operand positions play no part in what is decoded: B in a 2-byte instruction, A
and B in a 1-byte one and after an unknown opcode. -/
def Obligations.UnusedOperandBytesIgnored : Prop :=
  ∀ f : Fetched,
    ((decode f).length ≤ 2 → ∀ b : Byte, decode ⟨f.op, f.a, b⟩ = decode f) ∧
    ((decode f).length = 1 → ∀ a b : Byte, decode ⟨f.op, a, b⟩ = decode f)

/-- R85, R99, R233: in the loaded image of any sequence of instructions that fits the memory, the bytes
at each instruction's place decode to that instruction, whatever stands before and after it. -/
def Obligations.LoadedInstructionsDecodeInPlace : Prop :=
  ∀ (before after : List Instr) (i : Instr) (s : State),
    (encodeProgram (before ++ i :: after)).length ≤ 256 →
    s.mem = (boot (encodeProgram (before ++ i :: after))).mem →
    s.pc.toNat = (encodeProgram before).length → s.pc.toNat ≤ 253 →
    fetch s = .ok (bytesAt s) ∧ decodedAt s = .instr i

/-! ### Derived laws -/

/-- R162: PUSH Ra then POP Rb leaves Rb = the value Ra held, SP as it was, and the pushed byte in the
cell below. -/
def Obligations.PushPopRoundTrip : Prop :=
  ∀ (a b : Byte) (s : State) (_ : a.toNat < 8) (_ : b.toNat < 8), s.mem.wf = true →
    ∃ t u : State, exec (.push a) s = .next t ∧ exec (.pop b) t = .next u ∧
      u.regs[b.toNat] = s.regs[a.toNat] ∧ u.sp = s.sp ∧
      u.mem.read ((s.sp.toNat + 255) % 256) = s.regs[a.toNat]

/-- R163: 256 pushes in a row bring SP back to its starting value and overwrite every cell. It is about
256 executions of the instruction, not 256 steps: execTimes goes on at a pc above 253, where exec takes
the PUSH that no step reaches (entries 3 and 5). -/
def Obligations.FullCircleOfPushes : Prop :=
  ∀ (a : Byte) (s : State) (_ : a.toNat < 8), s.mem.wf = true →
    ∃ t : State, execTimes 256 (.push a) s = .next t ∧ t.sp = s.sp ∧
      ∀ x : Nat, x < 256 → t.mem.read x = s.regs[a.toNat]

/-- R136: ADD and MUL write the same value with their sources exchanged; CMP with its operands exchanged
keeps E and exchanges L and G; one flag is set after any CMP. -/
def Obligations.AluLaws : Prop :=
  ∀ (a b : Byte) (s : State) (_ : a.toNat < 8) (_ : b.toNat < 8),
    (∃ t u : State, exec (.add a b) s = .next t ∧ exec (.add b a) s = .next u ∧
      t.regs[a.toNat] = u.regs[b.toNat]) ∧
    (∃ t u : State, exec (.mul a b) s = .next t ∧ exec (.mul b a) s = .next u ∧
      t.regs[a.toNat] = u.regs[b.toNat]) ∧
    (∃ t u : State, exec (.cmp a b) s = .next t ∧ exec (.cmp b a) t = .next u ∧
      u.fl.e = t.fl.e ∧ u.fl.l = t.fl.g ∧ u.fl.g = t.fl.l ∧
      t.fl.e.toNat + t.fl.l.toNat + t.fl.g.toNat = 1)

/-- R178: from the same state exactly one of JEQ and JNE is taken. -/
def Obligations.ConditionalBranchesAreComplements : Prop :=
  ∀ (a : Byte) (s : State) (_ : a.toNat < 8),
    (exec (.jeq a) s = exec (.jmp a) s ∧ exec (.jne a) s = .next { s with pc := s.pc + 2#9 }) ∨
    (exec (.jne a) s = exec (.jmp a) s ∧ exec (.jeq a) s = .next { s with pc := s.pc + 2#9 })

/-- R33, R179: where at most one flag is set, the whole-byte test and the bit test agree with E. -/
def Obligations.EqualTestsAgree : Prop :=
  ∀ f : Flags, f.atMostOne = true →
    (f.toByte = 0x01#8 ↔ f.e = true) ∧ (f.toByte &&& 0x01#8 = 0#8 ↔ f.e = false) ∧
    f.toByte >>> 3 = 0#8

/-- R77: a PUSH that overwrites its own operand byte pushes the register that the byte named before. -/
def Obligations.PushOverItsOwnOperand : Prop :=
  ∀ (s : State) (_ : (s.mem.read (s.pc.toNat + 1)).toNat < 8), Executing s → s.mem.wf = true →
    s.mem.read s.pc.toNat = 0x45#8 → (s.sp.toNat + 255) % 256 = s.pc.toNat + 1 →
    ∃ t : State, step s = .next t ∧ t.pc.toNat = s.pc.toNat + 2 ∧
      t.mem.read (s.pc.toNat + 1) = s.regs[(s.mem.read (s.pc.toNat + 1)).toNat]

/-! ### Runs and the host's ports -/

/-- R61, R121: execution that meets only zero cells up to the top of memory runs NOPs and then faults at
254 with OutOfRange(address, 256). -/
def Obligations.RunningOffTheEndFaults : Prop :=
  ∀ s : State, s.status = .running → s.pc.toNat ≤ 254 →
    (∀ x : Nat, s.pc.toNat ≤ x → x < 256 → s.mem.read x = 0#8) →
    runBudget (254 - s.pc.toNat) s = { s with pc := 254#9 } ∧
    (runBudget (255 - s.pc.toNat) s).status = .faulted ⟨.outOfRangeAddress, 254#9, 256⟩

/-- R38, R39, R152: over any run `out` and `diag` only grow. -/
def Obligations.StreamsOnlyGrow : Prop :=
  ∀ (k : Nat) (s : State), s.out <+: (runBudget k s).out ∧ s.diag <+: (runBudget k s).diag

/-- R116, R235, R236, R237: a run that is not Running when its budget is spent is the same under every
larger budget; one that is Running goes on from the state of its next step; the run counts as not ended
exactly when its status is Running, and else its end is the status's. (That budgets compose follows.) -/
def Obligations.BudgetedRunEndsOnceOrGoesOn : Prop :=
  ∀ (j : Nat) (s : State),
    ((runBudget j s).status ≠ .running → ∀ k : Nat, runBudget (j + k) s = runBudget j s) ∧
    ((runBudget j s).status = .running → ∃ t : State, step (runBudget j s) = .next t ∧
      ∀ k : Nat, runBudget (j + 1 + k) s = runBudget k t) ∧
    (runEnd (runBudget j s) = .notEnded ↔ (runBudget j s).status = .running) ∧
    (runEnd (runBudget j s) = .halted ↔ (runBudget j s).status = .halted) ∧
    (∀ r : FaultRecord,
      runEnd (runBudget j s) = .faulted r ↔ (runBudget j s).status = .faulted r)

/-- R233: the loader puts byte i of the image in cell i and leaves the cells above at 0, with every other
field at its reset value; an image longer than 256 bytes leaves the engine Faulted with cause 1, pc 0,
value 256 (the spec's decision D15, entry 14). -/
def Obligations.LoaderPlacesImage : Prop :=
  ∀ image : List Byte,
    (image.length ≤ 256 →
      (∀ x : Nat, (boot image).mem.read x = image.getD x 0#8) ∧
      boot image = { State.reset with mem := (boot image).mem }) ∧
    (256 < image.length →
      (boot image).status = .faulted ⟨.outOfRangeAddress, 0#9, 256⟩ ∧
      ∀ k : Nat, runBudget k (boot image) = boot image)

/-- R41, R233, R235: before the first step a Running engine takes a load write, which writes its cell or,
above 255, enters Faulted (the spec's decision D15, entry 14). A Step, or a Run of at least one step, from
a Running engine is the first step; where the engine is not Running, Step and Run do nothing. From the
first step on load writes are not legal, and no request but Reset ends that; Reset is taken at any time.
What the port answers where a load write is not legal is the model's choice (entry 7). -/
def Obligations.FirstStepClosesLoadPort : Prop :=
  ∀ (x : Session) (addr : Nat) (byte : Byte),
    (x.started = false → x.engine.status = .running → addr < 256 →
      x.serve (.loadWrite addr byte) =
        .accepted ⟨{ x.engine with mem := x.engine.mem.write addr byte }, false⟩) ∧
    (x.started = false → x.engine.status = .running → 256 ≤ addr →
      x.serve (.loadWrite addr byte) =
        .accepted ⟨{ x.engine with status := .faulted ⟨.outOfRangeAddress, 0#9, addr⟩ }, false⟩) ∧
    (x.engine.status = .running → ∃ t : State, step x.engine = .next t ∧
      x.serve .step = .accepted ⟨t, true⟩ ∧
      ∀ k : Nat, x.serve (.run (k + 1)) = .accepted ⟨runBudget k t, true⟩) ∧
    (x.engine.status ≠ .running →
      x.serve .step = .accepted x ∧ ∀ k : Nat, x.serve (.run k) = .accepted x) ∧
    x.serve (.run 0) = .accepted x ∧
    (x.started = true ∨ x.engine.status ≠ .running →
      x.serve (.loadWrite addr byte) = .notLegal) ∧
    (∀ (q : Request) (y : Session), q ≠ .reset → x.started = true → x.serve q = .accepted y →
      y.started = true) ∧
    x.serve .reset = .accepted ⟨State.reset, false⟩

/-- R40, R205: STATUS is 0, 1 or 2 by the status, FAULT holds a record exactly when Faulted, and the
cause code is 0 without a record (the encoding is the spec's decision D9, entry 17). -/
def Obligations.StatusPortCodes : Prop :=
  ∀ s : State,
    (s.status = .running → statusRegister s = 0#2 ∧ faultRegister s = none ∧ faultCode s = 0) ∧
    (s.status = .halted → statusRegister s = 1#2 ∧ faultRegister s = none ∧ faultCode s = 0) ∧
    (∀ r : FaultRecord, s.status = .faulted r → statusRegister s = 2#2 ∧
      faultRegister s = some r ∧
      faultCode s = (match r.cause with
        | .outOfRangeAddress => 1
        | .outOfRangeRegister => 2
        | .unsupportedOperation => 3))

/-- R236: a run that started Running and Halted stood at an HLT that could be fetched, and its final
state is that state with only the status changed; one that Faulted stood where the priority list finds a
condition, whose record it holds (order and committed state: the spec's decisions D10 and D8, entries 13
and 12). -/
def Obligations.EndedRunStoodAtHltOrCondition : Prop :=
  ∀ (k : Nat) (s : State), s.status = .running →
    (runEnd (runBudget k s) = .halted → ∃ j < k,
      Executing (runBudget j s) ∧ decodedAt (runBudget j s) = .instr .hlt ∧
      runBudget k s = { runBudget j s with status := .halted }) ∧
    (∀ r : FaultRecord, runEnd (runBudget k s) = .faulted r → ∃ j < k, ∃ c : Condition,
      (runBudget j s).status = .running ∧ conditionAt (runBudget j s) = some c ∧
      r = c.record (runBudget j s).pc ∧
      runBudget k s = { runBudget j s with status := .faulted r })
end

