-- ==== Sys2Proof/Laws/State.lean ====
section
/-! SUPPORT. One lemma per field per named update of State, and what the effects on streams, status and
pc leave of each field. -/

namespace Sys2Proof.Machine

/-! ### withMem -/

@[simp] theorem State.withMem_mem (s : State) (m : Memory) : (s.withMem m).mem = m := rfl
@[simp] theorem State.withMem_regs (s : State) (m : Memory) : (s.withMem m).regs = s.regs := rfl
@[simp] theorem State.withMem_sp (s : State) (m : Memory) : (s.withMem m).sp = s.sp := rfl
@[simp] theorem State.withMem_fl (s : State) (m : Memory) : (s.withMem m).fl = s.fl := rfl
@[simp] theorem State.withMem_pc (s : State) (m : Memory) : (s.withMem m).pc = s.pc := rfl
@[simp] theorem State.withMem_status (s : State) (m : Memory) : (s.withMem m).status = s.status := rfl
@[simp] theorem State.withMem_out (s : State) (m : Memory) : (s.withMem m).out = s.out := rfl
@[simp] theorem State.withMem_diag (s : State) (m : Memory) : (s.withMem m).diag = s.diag := rfl

/-! ### withRegs -/

@[simp] theorem State.withRegs_mem (s : State) (r : Vector Byte Config.numGpr) : (s.withRegs r).mem = s.mem := rfl
@[simp] theorem State.withRegs_regs (s : State) (r : Vector Byte Config.numGpr) : (s.withRegs r).regs = r := rfl
@[simp] theorem State.withRegs_sp (s : State) (r : Vector Byte Config.numGpr) : (s.withRegs r).sp = s.sp := rfl
@[simp] theorem State.withRegs_fl (s : State) (r : Vector Byte Config.numGpr) : (s.withRegs r).fl = s.fl := rfl
@[simp] theorem State.withRegs_pc (s : State) (r : Vector Byte Config.numGpr) : (s.withRegs r).pc = s.pc := rfl
@[simp] theorem State.withRegs_status (s : State) (r : Vector Byte Config.numGpr) : (s.withRegs r).status = s.status := rfl
@[simp] theorem State.withRegs_out (s : State) (r : Vector Byte Config.numGpr) : (s.withRegs r).out = s.out := rfl
@[simp] theorem State.withRegs_diag (s : State) (r : Vector Byte Config.numGpr) : (s.withRegs r).diag = s.diag := rfl

/-! ### withSp -/

@[simp] theorem State.withSp_mem (s : State) (v : Byte) : (s.withSp v).mem = s.mem := rfl
@[simp] theorem State.withSp_regs (s : State) (v : Byte) : (s.withSp v).regs = s.regs := rfl
@[simp] theorem State.withSp_sp (s : State) (v : Byte) : (s.withSp v).sp = v := rfl
@[simp] theorem State.withSp_fl (s : State) (v : Byte) : (s.withSp v).fl = s.fl := rfl
@[simp] theorem State.withSp_pc (s : State) (v : Byte) : (s.withSp v).pc = s.pc := rfl
@[simp] theorem State.withSp_status (s : State) (v : Byte) : (s.withSp v).status = s.status := rfl
@[simp] theorem State.withSp_out (s : State) (v : Byte) : (s.withSp v).out = s.out := rfl
@[simp] theorem State.withSp_diag (s : State) (v : Byte) : (s.withSp v).diag = s.diag := rfl

/-! ### withFl -/

@[simp] theorem State.withFl_mem (s : State) (f : Flags) : (s.withFl f).mem = s.mem := rfl
@[simp] theorem State.withFl_regs (s : State) (f : Flags) : (s.withFl f).regs = s.regs := rfl
@[simp] theorem State.withFl_sp (s : State) (f : Flags) : (s.withFl f).sp = s.sp := rfl
@[simp] theorem State.withFl_fl (s : State) (f : Flags) : (s.withFl f).fl = f := rfl
@[simp] theorem State.withFl_pc (s : State) (f : Flags) : (s.withFl f).pc = s.pc := rfl
@[simp] theorem State.withFl_status (s : State) (f : Flags) : (s.withFl f).status = s.status := rfl
@[simp] theorem State.withFl_out (s : State) (f : Flags) : (s.withFl f).out = s.out := rfl
@[simp] theorem State.withFl_diag (s : State) (f : Flags) : (s.withFl f).diag = s.diag := rfl

/-! ### withPc -/

@[simp] theorem State.withPc_mem (s : State) (p : PcWord) : (s.withPc p).mem = s.mem := rfl
@[simp] theorem State.withPc_regs (s : State) (p : PcWord) : (s.withPc p).regs = s.regs := rfl
@[simp] theorem State.withPc_sp (s : State) (p : PcWord) : (s.withPc p).sp = s.sp := rfl
@[simp] theorem State.withPc_fl (s : State) (p : PcWord) : (s.withPc p).fl = s.fl := rfl
@[simp] theorem State.withPc_pc (s : State) (p : PcWord) : (s.withPc p).pc = p := rfl
@[simp] theorem State.withPc_status (s : State) (p : PcWord) : (s.withPc p).status = s.status := rfl
@[simp] theorem State.withPc_out (s : State) (p : PcWord) : (s.withPc p).out = s.out := rfl
@[simp] theorem State.withPc_diag (s : State) (p : PcWord) : (s.withPc p).diag = s.diag := rfl

/-! ### withStatus -/

@[simp] theorem State.withStatus_mem (s : State) (x : Status) : (s.withStatus x).mem = s.mem := rfl
@[simp] theorem State.withStatus_regs (s : State) (x : Status) : (s.withStatus x).regs = s.regs := rfl
@[simp] theorem State.withStatus_sp (s : State) (x : Status) : (s.withStatus x).sp = s.sp := rfl
@[simp] theorem State.withStatus_fl (s : State) (x : Status) : (s.withStatus x).fl = s.fl := rfl
@[simp] theorem State.withStatus_pc (s : State) (x : Status) : (s.withStatus x).pc = s.pc := rfl
@[simp] theorem State.withStatus_status (s : State) (x : Status) : (s.withStatus x).status = x := rfl
@[simp] theorem State.withStatus_out (s : State) (x : Status) : (s.withStatus x).out = s.out := rfl
@[simp] theorem State.withStatus_diag (s : State) (x : Status) : (s.withStatus x).diag = s.diag := rfl

/-! ### withOut -/

@[simp] theorem State.withOut_mem (s : State) (o : List Byte) : (s.withOut o).mem = s.mem := rfl
@[simp] theorem State.withOut_regs (s : State) (o : List Byte) : (s.withOut o).regs = s.regs := rfl
@[simp] theorem State.withOut_sp (s : State) (o : List Byte) : (s.withOut o).sp = s.sp := rfl
@[simp] theorem State.withOut_fl (s : State) (o : List Byte) : (s.withOut o).fl = s.fl := rfl
@[simp] theorem State.withOut_pc (s : State) (o : List Byte) : (s.withOut o).pc = s.pc := rfl
@[simp] theorem State.withOut_status (s : State) (o : List Byte) : (s.withOut o).status = s.status := rfl
@[simp] theorem State.withOut_out (s : State) (o : List Byte) : (s.withOut o).out = o := rfl
@[simp] theorem State.withOut_diag (s : State) (o : List Byte) : (s.withOut o).diag = s.diag := rfl

/-! ### withDiag -/

@[simp] theorem State.withDiag_mem (s : State) (d : List DiagEvent) : (s.withDiag d).mem = s.mem := rfl
@[simp] theorem State.withDiag_regs (s : State) (d : List DiagEvent) : (s.withDiag d).regs = s.regs := rfl
@[simp] theorem State.withDiag_sp (s : State) (d : List DiagEvent) : (s.withDiag d).sp = s.sp := rfl
@[simp] theorem State.withDiag_fl (s : State) (d : List DiagEvent) : (s.withDiag d).fl = s.fl := rfl
@[simp] theorem State.withDiag_pc (s : State) (d : List DiagEvent) : (s.withDiag d).pc = s.pc := rfl
@[simp] theorem State.withDiag_status (s : State) (d : List DiagEvent) : (s.withDiag d).status = s.status := rfl
@[simp] theorem State.withDiag_out (s : State) (d : List DiagEvent) : (s.withDiag d).out = s.out := rfl
@[simp] theorem State.withDiag_diag (s : State) (d : List DiagEvent) : (s.withDiag d).diag = d := rfl

/-! ### emit -/

@[simp] theorem emit_mem (s : State) (v : Byte) : (emit s v).mem = s.mem := rfl
@[simp] theorem emit_regs (s : State) (v : Byte) : (emit s v).regs = s.regs := rfl
@[simp] theorem emit_sp (s : State) (v : Byte) : (emit s v).sp = s.sp := rfl
@[simp] theorem emit_fl (s : State) (v : Byte) : (emit s v).fl = s.fl := rfl
@[simp] theorem emit_pc (s : State) (v : Byte) : (emit s v).pc = s.pc := rfl
@[simp] theorem emit_status (s : State) (v : Byte) : (emit s v).status = s.status := rfl
@[simp] theorem emit_out (s : State) (v : Byte) : (emit s v).out = s.out ++ [v] := rfl
@[simp] theorem emit_diag (s : State) (v : Byte) : (emit s v).diag = s.diag := rfl

/-! ### report -/

@[simp] theorem report_mem (s : State) (op : Byte) : (report s op).mem = s.mem := rfl
@[simp] theorem report_regs (s : State) (op : Byte) : (report s op).regs = s.regs := rfl
@[simp] theorem report_sp (s : State) (op : Byte) : (report s op).sp = s.sp := rfl
@[simp] theorem report_fl (s : State) (op : Byte) : (report s op).fl = s.fl := rfl
@[simp] theorem report_pc (s : State) (op : Byte) : (report s op).pc = s.pc := rfl
@[simp] theorem report_status (s : State) (op : Byte) : (report s op).status = s.status := rfl
@[simp] theorem report_out (s : State) (op : Byte) : (report s op).out = s.out := rfl
@[simp] theorem report_diag (s : State) (op : Byte) : (report s op).diag = s.diag ++ [⟨s.pc, op⟩] := rfl

/-! ### halt -/

@[simp] theorem halt_mem (s : State) : (halt s).mem = s.mem := rfl
@[simp] theorem halt_regs (s : State) : (halt s).regs = s.regs := rfl
@[simp] theorem halt_sp (s : State) : (halt s).sp = s.sp := rfl
@[simp] theorem halt_fl (s : State) : (halt s).fl = s.fl := rfl
@[simp] theorem halt_pc (s : State) : (halt s).pc = s.pc := rfl
@[simp] theorem halt_status (s : State) : (halt s).status = .halted := rfl
@[simp] theorem halt_out (s : State) : (halt s).out = s.out := rfl
@[simp] theorem halt_diag (s : State) : (halt s).diag = s.diag := rfl

/-! ### advance -/

@[simp] theorem advance_mem (s : State) (n : Nat) : (advance s n).mem = s.mem := rfl
@[simp] theorem advance_regs (s : State) (n : Nat) : (advance s n).regs = s.regs := rfl
@[simp] theorem advance_sp (s : State) (n : Nat) : (advance s n).sp = s.sp := rfl
@[simp] theorem advance_fl (s : State) (n : Nat) : (advance s n).fl = s.fl := rfl
@[simp] theorem advance_pc (s : State) (n : Nat) : (advance s n).pc = s.pc + BitVec.ofNat 9 n := rfl
@[simp] theorem advance_status (s : State) (n : Nat) : (advance s n).status = s.status := rfl
@[simp] theorem advance_out (s : State) (n : Nat) : (advance s n).out = s.out := rfl
@[simp] theorem advance_diag (s : State) (n : Nat) : (advance s n).diag = s.diag := rfl

/-! ### jump -/

@[simp] theorem jump_mem (s : State) (t : Byte) : (jump s t).mem = s.mem := rfl
@[simp] theorem jump_regs (s : State) (t : Byte) : (jump s t).regs = s.regs := rfl
@[simp] theorem jump_sp (s : State) (t : Byte) : (jump s t).sp = s.sp := rfl
@[simp] theorem jump_fl (s : State) (t : Byte) : (jump s t).fl = s.fl := rfl
@[simp] theorem jump_pc (s : State) (t : Byte) : (jump s t).pc = t.setWidth 9 := rfl
@[simp] theorem jump_status (s : State) (t : Byte) : (jump s t).status = s.status := rfl
@[simp] theorem jump_out (s : State) (t : Byte) : (jump s t).out = s.out := rfl
@[simp] theorem jump_diag (s : State) (t : Byte) : (jump s t).diag = s.diag := rfl

/-! ### dropByte -/

@[simp] theorem dropByte_mem (s : State) : (dropByte s).mem = s.mem := rfl
@[simp] theorem dropByte_regs (s : State) : (dropByte s).regs = s.regs := rfl
@[simp] theorem dropByte_sp (s : State) : (dropByte s).sp = s.sp + 1#8 := rfl
@[simp] theorem dropByte_fl (s : State) : (dropByte s).fl = s.fl := rfl
@[simp] theorem dropByte_pc (s : State) : (dropByte s).pc = s.pc := rfl
@[simp] theorem dropByte_status (s : State) : (dropByte s).status = s.status := rfl
@[simp] theorem dropByte_out (s : State) : (dropByte s).out = s.out := rfl
@[simp] theorem dropByte_diag (s : State) : (dropByte s).diag = s.diag := rfl

/-! ### Fault entry -/

@[simp] theorem enterFault_mem (c : Condition) (s : State) : (enterFault c s).mem = s.mem := rfl
@[simp] theorem enterFault_regs (c : Condition) (s : State) : (enterFault c s).regs = s.regs := rfl
@[simp] theorem enterFault_sp (c : Condition) (s : State) : (enterFault c s).sp = s.sp := rfl
@[simp] theorem enterFault_fl (c : Condition) (s : State) : (enterFault c s).fl = s.fl := rfl
@[simp] theorem enterFault_pc (c : Condition) (s : State) : (enterFault c s).pc = s.pc := rfl
@[simp] theorem enterFault_status (c : Condition) (s : State) : (enterFault c s).status = .faulted (c.record s.pc) := rfl
@[simp] theorem enterFault_out (c : Condition) (s : State) : (enterFault c s).out = s.out := rfl
@[simp] theorem enterFault_diag (c : Condition) (s : State) : (enterFault c s).diag = s.diag := rfl

end Sys2Proof.Machine
end

