-- ==== Sys2Proof/Laws/Memory.lean ====
section
/-! SUPPORT. The memory operations: read after write, and the canonical form that every one keeps. -/

namespace Sys2Proof.Machine

/-! ### The cell list -/

theorem Memory.read_listCell (a : Nat) (v : Byte) (rest : Memory) (x : Nat)
    (h : x = a → rest.read a = Config.memReset) :
    (Memory.listCell a v rest).read x = if x = a then v else rest.read x := by
  unfold Memory.listCell
  by_cases hx : x = a
  · subst hx
    split
    · simp [*]
    · simp [Memory.read]
  · split
    · simp
    · have : a ≠ x := fun e => hx e.symm
      simp [Memory.read, this]

theorem Memory.wfFrom_mono {lo lo' : Nat} {m : Memory} (h : m.wfFrom lo' = true) (hl : lo ≤ lo') :
    m.wfFrom lo = true := by
  cases m with
  | nil => rfl
  | cons cell rest =>
    obtain ⟨k, v⟩ := cell
    simp only [Memory.wfFrom, Bool.and_eq_true, decide_eq_true_eq] at h ⊢
    exact ⟨⟨⟨le_trans hl h.1.1.1, h.1.1.2⟩, h.1.2⟩, h.2⟩

/-- A canonical memory from `lo` on lists no cell below `lo`. -/
theorem Memory.read_below {m : Memory} : ∀ {lo x : Nat}, m.wfFrom lo = true → x < lo →
    m.read x = Config.memReset := by
  induction m with
  | nil => intros; rfl
  | cons cell rest ih =>
    obtain ⟨k, v⟩ := cell
    intro lo x h hx
    simp only [Memory.wfFrom, Bool.and_eq_true, decide_eq_true_eq] at h
    have hk : k ≠ x := by omega
    simp only [Memory.read, hk, if_false]
    exact ih h.2 (by omega)

theorem Memory.wfFrom_listCell {lo a : Nat} {v : Byte} {rest : Memory} (hlo : lo ≤ a)
    (ha : a < Config.memSize) (h : rest.wfFrom (a + 1) = true) :
    (Memory.listCell a v rest).wfFrom lo = true := by
  unfold Memory.listCell
  split
  · exact Memory.wfFrom_mono h (by omega)
  · simp [Memory.wfFrom, *]

/-! ### Write -/

/-- A write replaces its own cell and leaves every other alone (R63). -/
theorem Memory.read_write {m : Memory} : ∀ {lo : Nat} (a : Nat) (v : Byte) (x : Nat),
    m.wfFrom lo = true → (m.write a v).read x = if x = a then v else m.read x := by
  induction m with
  | nil =>
    intro lo a v x _
    exact Memory.read_listCell a v [] x fun _ => rfl
  | cons cell rest ih =>
    obtain ⟨k, w⟩ := cell
    intro lo a v x h
    simp only [Memory.wfFrom, Bool.and_eq_true, decide_eq_true_eq] at h
    unfold Memory.write
    by_cases h1 : a < k
    · rw [if_pos h1]
      refine Memory.read_listCell a v _ x fun _ => ?_
      have hk : k ≠ a := by omega
      simp only [Memory.read, hk, if_false]
      exact Memory.read_below h.2 (by omega)
    · rw [if_neg h1]
      by_cases h2 : a = k
      · subst h2
        rw [if_pos rfl, Memory.read_listCell a v rest x fun _ => Memory.read_below h.2 (by omega)]
        by_cases hx : x = a
        · simp [hx]
        · have : a ≠ x := fun e => hx e.symm
          simp [Memory.read, hx, this]
      · rw [if_neg h2]
        simp only [Memory.read, ih a v x h.2]
        by_cases hk : k = x
        · have : x ≠ a := by omega
          simp [hk, this]
        · simp [hk]

theorem Memory.read_write_same {m : Memory} (h : m.wf = true) (a : Nat) (v : Byte) :
    (m.write a v).read a = v := by
  simp [Memory.read_write (lo := 0) a v a h]

theorem Memory.read_write_other {m : Memory} (h : m.wf = true) {a x : Nat} (v : Byte) (hx : x ≠ a) :
    (m.write a v).read x = m.read x := by
  simp [Memory.read_write (lo := 0) a v x h, hx]

theorem Memory.wfFrom_write {m : Memory} : ∀ {lo a : Nat} {v : Byte}, m.wfFrom lo = true → lo ≤ a →
    a < Config.memSize → (m.write a v).wfFrom lo = true := by
  induction m with
  | nil => intro lo a v _ hlo ha; exact Memory.wfFrom_listCell hlo ha rfl
  | cons cell rest ih =>
    obtain ⟨k, w⟩ := cell
    intro lo a v h hlo ha
    simp only [Memory.wfFrom, Bool.and_eq_true, decide_eq_true_eq] at h
    unfold Memory.write
    by_cases h1 : a < k
    · rw [if_pos h1]
      refine Memory.wfFrom_listCell hlo ha ?_
      simp [Memory.wfFrom, h]
      omega
    · rw [if_neg h1]
      by_cases h2 : a = k
      · subst h2
        rw [if_pos rfl]
        exact Memory.wfFrom_listCell hlo ha h.2
      · rw [if_neg h2]
        simp [Memory.wfFrom, h, ih h.2 (show k + 1 ≤ a by omega) ha]

/-- A write keeps the canonical form. -/
theorem Memory.wf_write {m : Memory} (h : m.wf = true) {a : Nat} (v : Byte)
    (ha : a < Config.memSize) : (m.write a v).wf = true :=
  Memory.wfFrom_write h (Nat.zero_le a) ha

/-- Canonical memories that read alike are equal data. -/
theorem Memory.ext_of_wfFrom {m : Memory} : ∀ {n : Memory} {lo : Nat}, m.wfFrom lo = true →
    n.wfFrom lo = true → (∀ x, m.read x = n.read x) → m = n := by
  induction m with
  | nil =>
    intro n lo _ hn hr
    cases n with
    | nil => rfl
    | cons cell rest =>
      obtain ⟨k, v⟩ := cell
      simp only [Memory.wfFrom, Bool.and_eq_true, decide_eq_true_eq] at hn
      have := hr k
      simp [Memory.read] at this
      exact absurd this.symm hn.1.2
  | cons cell rest ih =>
    obtain ⟨k, v⟩ := cell
    intro n lo hm hn hr
    simp only [Memory.wfFrom, Bool.and_eq_true, decide_eq_true_eq] at hm
    cases n with
    | nil =>
      have := hr k
      simp [Memory.read] at this
      exact absurd this hm.1.2
    | cons cell' rest' =>
      obtain ⟨k', v'⟩ := cell'
      simp only [Memory.wfFrom, Bool.and_eq_true, decide_eq_true_eq] at hn
      have hk : k = k' := by
        rcases Nat.lt_trichotomy k k' with h | h | h
        · have e := hr k
          have hne : k' ≠ k := by omega
          simp only [Memory.read, if_true, hne, if_false] at e
          rw [Memory.read_below hn.2 (by omega)] at e
          exact absurd e hm.1.2
        · exact h
        · have e := hr k'
          have hne : k ≠ k' := by omega
          simp only [Memory.read, if_true, hne, if_false] at e
          rw [Memory.read_below hm.2 (by omega)] at e
          exact absurd e.symm hn.1.2
      subst hk
      have hv : v = v' := by simpa [Memory.read] using hr k
      subst hv
      have : rest = rest' := by
        refine ih hm.2 hn.2 fun x => ?_
        by_cases hx : k = x
        · subst hx
          rw [Memory.read_below hm.2 (by omega), Memory.read_below hn.2 (by omega)]
        · simpa [Memory.read, hx] using hr x
      rw [this]

theorem Memory.ext_of_wf {m n : Memory} (hm : m.wf = true) (hn : n.wf = true)
    (h : ∀ x, m.read x = n.read x) : m = n :=
  Memory.ext_of_wfFrom hm hn h

/-- The empty list is canonical; it is the memory of the reset state. -/
theorem Memory.wf_reset : State.reset.mem.wf = true := rfl

/-- A cell that is listed nowhere holds the reset byte. -/
@[simp] theorem Memory.read_nil (x : Nat) : Memory.read [] x = Config.memReset := rfl

/-! ### The memory primitives -/

theorem memRead_of_lt (s : State) {a : Nat} (h : a < Config.memSize) :
    memRead s a = .ok (s.mem.read a) := if_pos h

theorem memRead_of_ge (s : State) {a : Nat} (h : Config.memSize ≤ a) :
    memRead s a = .error (.outOfRangeAddress a) := if_neg (Nat.not_lt.mpr h)

theorem memWrite_of_lt (s : State) {a : Nat} (v : Byte) (h : a < Config.memSize) :
    memWrite s a v = .ok (s.withMem (s.mem.write a v)) := if_pos h

theorem memWrite_of_ge (s : State) {a : Nat} (v : Byte) (h : Config.memSize ≤ a) :
    memWrite s a v = .error (.outOfRangeAddress a) := if_neg (Nat.not_lt.mpr h)

/-- A byte is always an address of a cell (R29). -/
theorem byte_lt_memSize (b : Byte) : b.toNat < Config.memSize := b.isLt

/-! ### Placing bytes -/

theorem placeBytes_of_fits (m : Memory) {a : Nat} (f : Fetched) (h : a + 2 < Config.memSize) :
    placeBytes m a f = ((m.write a f.op).write (a + 1) f.a).write (a + 2) f.b := by
  have h0 : a < Config.memSize := by omega
  have h1 : a + 1 < Config.memSize := by omega
  simp [placeBytes, h, h0, h1]

theorem placeBytes_wf {m : Memory} (hm : m.wf = true) (a : Nat) (f : Fetched) :
    (placeBytes m a f).wf = true := by
  have put : ∀ (n : Memory) (x : Nat) (v : Byte), n.wf = true →
      (if x < Config.memSize then n.write x v else n).wf = true := by
    intro n x v hn
    split
    · exact Memory.wf_write hn v ‹_›
    · exact hn
  exact put _ _ _ (put _ _ _ (put _ _ _ hm))

end Sys2Proof.Machine
end

