-- ==== Sys2Proof/Laws/Ops.lean ====
section
/-! SUPPORT. One lemma per shared operation that says everything it can do: registers, operands, the
ALU, the stack bytes, the branch, the end of a step. -/

namespace Sys2Proof.Machine

/-! ### Registers -/

theorem readReg_of_lt (s : State) {i : Nat} (h : i < Config.numGpr) :
    readReg s i = .ok s.regs[i] := dif_pos h

theorem readReg_of_ge (s : State) {i : Nat} (h : Config.numGpr ≤ i) :
    readReg s i = .error (.outOfRangeRegister i) := dif_neg (Nat.not_lt.mpr h)

theorem writeReg_of_lt (s : State) {i : Nat} (v : Nat) (h : i < Config.numGpr) :
    writeReg s i v = .ok (s.withRegs (s.regs.set i (BitVec.ofNat 8 v) h)) := dif_pos h

theorem writeReg_of_ge (s : State) {i : Nat} (v : Nat) (h : Config.numGpr ≤ i) :
    writeReg s i v = .error (.outOfRangeRegister i) := dif_neg (Nat.not_lt.mpr h)

/-! ### Operands -/

theorem readOperand_of_lt (s : State) {x : Byte} (h : x.toNat < Config.numGpr) :
    readOperand s x = .ok s.regs[x.toNat] := readReg_of_lt s h

theorem readOperand_of_ge (s : State) {x : Byte} (h : Config.numGpr ≤ x.toNat) :
    readOperand s x = .error (.outOfRangeRegister x.toNat) := readReg_of_ge s h

theorem writeOperand_of_lt (s : State) {x : Byte} (v : Nat) (h : x.toNat < Config.numGpr) :
    writeOperand s x v = .ok (s.withRegs (s.regs.set x.toNat (BitVec.ofNat 8 v) h)) :=
  writeReg_of_lt s v h

theorem writeOperand_of_ge (s : State) {x : Byte} (v : Nat) (h : Config.numGpr ≤ x.toNat) :
    writeOperand s x v = .error (.outOfRangeRegister x.toNat) := writeReg_of_ge s v h

theorem readOperands_of_lt (s : State) {a b : Byte} (ha : a.toNat < Config.numGpr)
    (hb : b.toNat < Config.numGpr) :
    readOperands s a b = .ok (s.regs[a.toNat], s.regs[b.toNat]) := by
  simp only [readOperands, readOperand_of_lt s ha, readOperand_of_lt s hb]; rfl

theorem readOperands_of_first_ge (s : State) {a : Byte} (b : Byte)
    (ha : Config.numGpr ≤ a.toNat) :
    readOperands s a b = .error (.outOfRangeRegister a.toNat) := by
  simp only [readOperands, readOperand_of_ge s ha]; rfl

theorem readOperands_of_second_ge (s : State) {a b : Byte} (ha : a.toNat < Config.numGpr)
    (hb : Config.numGpr ≤ b.toNat) :
    readOperands s a b = .error (.outOfRangeRegister b.toNat) := by
  simp only [readOperands, readOperand_of_lt s ha, readOperand_of_ge s hb]; rfl

/-! ### The ALU -/

theorem alu_of_operands {s : State} {select a b va vb : Byte}
    (h : readOperands s a b = .ok (va, vb)) :
    alu select a b s =
      if select = Config.selectAdd then writeOperand s a (va.toNat + vb.toNat)
      else if select = Config.selectMul then writeOperand s a (va.toNat * vb.toNat)
      else if select = Config.selectCmp then .ok (s.withFl (compareFlags va vb))
      else .error (.unsupportedOperation select) := by
  simp only [alu, h]; rfl

theorem alu_of_bad_operand {s : State} {a b : Byte} (select : Byte) {c : Condition}
    (h : readOperands s a b = .error c) : alu select a b s = .error c := by
  simp only [alu, h]; rfl

theorem aluStep_of_ok {s t : State} {select a b : Byte} (h : alu select a b s = .ok t) :
    aluStep select a b s = .ok (advance t 3) := by
  simp only [aluStep, h]; rfl

theorem aluStep_of_error {s : State} {select a b : Byte} {c : Condition}
    (h : alu select a b s = .error c) : aluStep select a b s = .error c := by
  simp only [aluStep, h]; rfl

/-! ### The flags of a comparison -/

/-- A comparison sets exactly one flag (R134). -/
theorem compareFlags_count (va vb : Byte) : (compareFlags va vb).count = 1 := by
  rcases Nat.lt_trichotomy va.toNat vb.toNat with h | h | h
  · have h1 : va.toNat ≠ vb.toNat := by omega
    have h2 : ¬ vb.toNat < va.toNat := by omega
    simp [compareFlags, Flags.count, h, h1, h2]
  · simp [compareFlags, Flags.count, h]
  · have h1 : va.toNat ≠ vb.toNat := by omega
    have h2 : ¬ va.toNat < vb.toNat := by omega
    simp [compareFlags, Flags.count, h, h1, h2]

/-! ### The stack -/

/-- A push address is always a cell, so a push never raises of itself (R160). -/
theorem pushByte_ok (s : State) (v : Byte) :
    pushByte s v = .ok
      ((s.withMem (s.mem.write (pushAddress s).toNat v)).withSp (pushAddress s)) := by
  simp only [pushByte, memWrite_of_lt s v (byte_lt_memSize _)]; rfl

/-- Nor does the read of a pop (R161). -/
theorem memRead_popAddress (s : State) :
    memRead s (popAddress s).toNat = .ok (s.mem.read s.sp.toNat) :=
  memRead_of_lt s (byte_lt_memSize _)

/-! ### Branches -/

theorem jumpTo_of_lt (s : State) {a : Byte} (h : a.toNat < Config.numGpr) :
    jumpTo a s = .ok (jump s s.regs[a.toNat]) := by
  simp only [jumpTo, readOperand_of_lt s h]; rfl

theorem jumpTo_of_ge (s : State) {a : Byte} (h : Config.numGpr ≤ a.toNat) :
    jumpTo a s = .error (.outOfRangeRegister a.toNat) := by
  simp only [jumpTo, readOperand_of_ge s h]; rfl

@[simp] theorem branchIf_taken (a : Byte) (s : State) : branchIf true a s = jumpTo a s := rfl

@[simp] theorem branchIf_not_taken (a : Byte) (s : State) :
    branchIf false a s = .ok (advance s 2) := rfl

/-! ### The end of a step -/

@[simp] theorem commit_ok (s t : State) : commit s (.ok t) = .next t := rfl

@[simp] theorem commit_error (s : State) (c : Condition) :
    commit s (.error c) = .next (enterFault c s) := rfl

/-- A step either commits all its results or enters Faulted (R114). -/
theorem commit_cases {s t : State} {r : Except Condition State} (h : commit s r = .next t) :
    r = .ok t ∨ ∃ c, r = .error c ∧ t = enterFault c s := by
  cases r with
  | ok u => left; injection h with h; rw [h]
  | error c => right; injection h with h; exact ⟨c, rfl, h.symm⟩

/-- The end of a step is a next state, whatever the results. -/
theorem commit_next (s : State) (r : Except Condition State) : ∃ t, commit s r = .next t := by
  cases r <;> exact ⟨_, rfl⟩

end Sys2Proof.Machine
end

