-- ==== Sys2Proof/Laws/PerInstr.lean ====
section
/-! SUPPORT. Laws of the instruction as syntax, one lemma per constructor. -/

namespace Sys2Proof.Laws.Encoding

/-- The encoding has the row's length, and bits [7:6] of the opcode are the number of operand bytes
(R87, R96). -/
def Statement (i : Instr) : Prop :=
  (encode i).length = i.length ∧ (i.opcode >>> 6).toNat + 1 = i.length

theorem ldi (a b : Byte) : Statement (.ldi a b) := ⟨rfl, by simp [Instr.opcode, Instr.length]⟩

theorem prn (a : Byte) : Statement (.prn a) := ⟨rfl, by simp [Instr.opcode, Instr.length]⟩

theorem hlt : Statement .hlt := ⟨rfl, by simp [Instr.opcode, Instr.length]⟩

theorem add (a b : Byte) : Statement (.add a b) := ⟨rfl, by simp [Instr.opcode, Instr.length]⟩

theorem mul (a b : Byte) : Statement (.mul a b) := ⟨rfl, by simp [Instr.opcode, Instr.length]⟩

theorem push (a : Byte) : Statement (.push a) := ⟨rfl, by simp [Instr.opcode, Instr.length]⟩

theorem pop (a : Byte) : Statement (.pop a) := ⟨rfl, by simp [Instr.opcode, Instr.length]⟩

theorem cmp (a b : Byte) : Statement (.cmp a b) := ⟨rfl, by simp [Instr.opcode, Instr.length]⟩

theorem jmp (a : Byte) : Statement (.jmp a) := ⟨rfl, by simp [Instr.opcode, Instr.length]⟩

theorem jeq (a : Byte) : Statement (.jeq a) := ⟨rfl, by simp [Instr.opcode, Instr.length]⟩

theorem jne (a : Byte) : Statement (.jne a) := ⟨rfl, by simp [Instr.opcode, Instr.length]⟩

theorem nop : Statement .nop := ⟨rfl, by simp [Instr.opcode, Instr.length]⟩

end Sys2Proof.Laws.Encoding
end

