-- ==== Sys2Proof/Laws/Step.lean ====
section
/-! SUPPORT. The fetch, the execute phase and the step: what each can do, once. -/

namespace Sys2Proof.Machine

/-! ### Fetch -/

/-- Where the three bytes exist the fetch reads them (R111). -/
theorem fetch_of_fetchable {s : State} (h : Fetchable s) : fetch s = .ok (bytesAt s) := by
  have h0 : s.pc.toNat < Config.memSize := by unfold Fetchable at h; omega
  have h1 : s.pc.toNat + 1 < Config.memSize := by unfold Fetchable at h; omega
  simp only [fetch, memRead_of_lt s h0, memRead_of_lt s h1, memRead_of_lt s h]; rfl

/-- Where one does not, the first that is out of range is raised (R111, R206). -/
theorem fetch_of_not_fetchable {s : State} (h : ¬ Fetchable s) :
    fetch s = .error (.outOfRangeAddress (max s.pc.toNat Config.memSize)) := by
  have h' : 256 ≤ s.pc.toNat + 2 := by simpa [Fetchable, Config.memSize] using h
  by_cases h0 : s.pc.toNat < Config.memSize
  · have hm : max s.pc.toNat Config.memSize = 256 := by simp [Config.memSize] at *; omega
    by_cases h1 : s.pc.toNat + 1 < Config.memSize
    · have e : s.pc.toNat + 2 = 256 := by simp [Config.memSize] at *; omega
      simp only [fetch, memRead_of_lt s h0, memRead_of_lt s h1, hm, e]; rfl
    · have e : s.pc.toNat + 1 = 256 := by simp [Config.memSize] at *; omega
      simp only [fetch, memRead_of_lt s h0, hm, e]; rfl
  · have h2 : Config.memSize ≤ s.pc.toNat := Nat.not_lt.mp h0
    simp only [fetch, memRead_of_ge s h2, max_eq_left h2]; rfl

/-! ### Execute -/

/-- Every instruction answers a next state: it either completes or enters Faulted. -/
theorem exec_next (i : Instr) (s : State) : ∃ t, exec i s = .next t := by
  cases i with
  | hlt => exact ⟨_, rfl⟩
  | nop => exact ⟨_, rfl⟩
  | _ => exact commit_next _ _

/-- An unknown opcode is reported and skipped, from every state (R192). -/
theorem execUnknown_next (op : Byte) (s : State) :
    execUnknown op s = .next (advance (report s op) 1) := rfl

/-! ### Step -/

theorem step_of_fetchable {s : State} (hr : s.status = .running) (h : Fetchable s) :
    step s = runDecoded (decodedAt s) s := by
  unfold step; rw [hr]; simp only [fetch_of_fetchable h]; rfl

theorem step_of_not_fetchable {s : State} (hr : s.status = .running) (h : ¬ Fetchable s) :
    step s = .next (enterFault (.outOfRangeAddress (max s.pc.toNat Config.memSize)) s) := by
  unfold step; rw [hr]; simp only [fetch_of_not_fetchable h]; rfl

theorem step_of_halted {s : State} (h : s.status = .halted) : step s = .fault .noStepFromHalted := by
  unfold step; rw [h]

theorem step_of_faulted {s : State} {r : FaultRecord} (h : s.status = .faulted r) :
    step s = .fault .noStepFromFaulted := by
  unfold step; rw [h]

/-- Everything a step that answers a next state can have done. -/
theorem step_cases {s t : State} (h : step s = .next t) : s.status = .running ∧
    ((¬ Fetchable s ∧ t = enterFault (.outOfRangeAddress (max s.pc.toNat Config.memSize)) s) ∨
     (Fetchable s ∧ ∃ i, decodedAt s = .instr i ∧ exec i s = .next t) ∨
     (Fetchable s ∧ ∃ op, decodedAt s = .unknown op ∧ t = advance (report s op) 1)) := by
  cases hs : s.status with
  | halted => rw [step_of_halted hs] at h; cases h
  | faulted r => rw [step_of_faulted hs] at h; cases h
  | running =>
    refine ⟨rfl, ?_⟩
    by_cases hf : Fetchable s
    · right
      rw [step_of_fetchable hs hf] at h
      cases hd : decodedAt s with
      | instr i => rw [hd] at h; exact .inl ⟨hf, i, rfl, h⟩
      | unknown op =>
        rw [hd] at h
        refine .inr ⟨hf, op, rfl, ?_⟩
        injection h with h
        exact h.symm
    · left
      rw [step_of_not_fetchable hs hf] at h
      injection h with h
      exact ⟨hf, h.symm⟩

/-- The step after `withFetchWord` runs exactly the decoded word, from every pc that can be fetched. -/
theorem step_withFetchWord {s : State} (hm : s.mem.wf = true) (h : Fetchable s) (nbits w : Nat) :
    step (s.withFetchWord nbits w) =
      runDecoded (decode (tableBytes nbits w)) (s.withFetchWord nbits w) := by
  have hf : Fetchable (s.withFetchWord nbits w) := h
  rw [step_of_fetchable rfl hf]
  have h0 : s.pc.toNat < Config.memSize := by unfold Fetchable at h; omega
  have h1 : s.pc.toNat + 1 < Config.memSize := by unfold Fetchable at h; omega
  have w0 := Memory.wf_write hm (tableBytes nbits w).op h0
  have w1 := Memory.wf_write w0 (tableBytes nbits w).a h1
  have e : bytesAt (s.withFetchWord nbits w) = tableBytes nbits w := by
    have n0 : s.pc.toNat ≠ s.pc.toNat + 1 := by omega
    have n1 : s.pc.toNat ≠ s.pc.toNat + 2 := by omega
    have n2 : s.pc.toNat + 1 ≠ s.pc.toNat + 2 := by omega
    simp only [bytesAt, State.withFetchWord, State.withStatus_mem, State.withStatus_pc,
      State.withMem_mem, State.withMem_pc, placeBytes_of_fits s.mem _ h,
      Memory.read_write_same w1, Memory.read_write_other w1 _ n1, Memory.read_write_other w1 _ n2,
      Memory.read_write_other w0 _ n0, Memory.read_write_same w0, Memory.read_write_same hm]
  unfold decodedAt
  rw [e]

/-! ### The priority list -/

/-- Where the fetch succeeds, only the used indices can raise (R206 steps 4 to 6). -/
theorem conditionAt_of_fetchable {s : State} (h : Fetchable s) :
    conditionAt s =
      match decodedAt s with
      | .instr i => badIndex (usedIndices i s.fl.e)
      | .unknown _ => none := by
  have h' : s.pc.toNat + 2 < 256 := h
  have h0 : ¬ Config.memSize ≤ s.pc.toNat := by omega
  have h1 : ¬ Config.memSize ≤ s.pc.toNat + 1 := by omega
  have h2 : ¬ Config.memSize ≤ s.pc.toNat + 2 := by omega
  unfold conditionAt
  exact (if_neg h0).trans ((if_neg h1).trans (if_neg h2))

/-- Where it does not, the first address out of range is the condition (R206 steps 1 to 3). -/
theorem conditionAt_of_not_fetchable {s : State} (h : ¬ Fetchable s) :
    conditionAt s = some (.outOfRangeAddress (max s.pc.toNat Config.memSize)) := by
  have h' : 256 ≤ s.pc.toNat + 2 := Nat.not_lt.mp h
  unfold conditionAt
  split
  · rw [max_eq_left ‹_›]
  · rw [max_eq_right (by omega)]
    split
    · rw [show s.pc.toNat + 1 = Config.memSize by omega]
    · rw [show s.pc.toNat + 2 = Config.memSize by omega]

/-- A condition of the list is an index above 7. -/
theorem badIndex_some {xs : List Byte} {c : Condition} (h : badIndex xs = some c) :
    ∃ x ∈ xs, Config.numGpr ≤ x.toNat ∧ c = .outOfRangeRegister x.toNat := by
  induction xs with
  | nil => cases h
  | cons x rest ih =>
    unfold badIndex at h
    split at h
    · obtain ⟨y, hy, hc⟩ := ih h
      exact ⟨y, List.mem_cons_of_mem x hy, hc⟩
    · injection h with h
      exact ⟨x, List.mem_cons_self, Nat.not_lt.mp ‹_›, h.symm⟩

end Sys2Proof.Machine
end

