-- ==== Sys2Proof/Laws/Ports.lean ====
section
/-! SUPPORT. The host's transactions: what a load write, a host step and a budgeted run can do. -/

namespace Sys2Proof.Machine

/-! ### Load port -/

theorem loadWrite_of_lt (s : State) {a : Nat} (v : Byte) (h : a < Config.memSize) :
    loadWrite s a v = s.withMem (s.mem.write a v) := by
  simp only [loadWrite, memWrite_of_lt s v h]

theorem loadWrite_of_ge (s : State) {a : Nat} (v : Byte) (h : Config.memSize ≤ a) :
    loadWrite s a v = s.withStatus (.faulted ⟨.outOfRangeAddress, 0#9, a⟩) := by
  simp only [loadWrite, memWrite_of_ge s v h]; rfl

@[simp] theorem loadFrom_nil (s : State) (i : Nat) : loadFrom s i [] = s := rfl

theorem loadFrom_cons_of_lt {s : State} (hr : s.status = .running) {i : Nat} (v : Byte)
    (rest : List Byte) (h : i < Config.memSize) :
    loadFrom s i (v :: rest) = loadFrom (s.withMem (s.mem.write i v)) (i + 1) rest := by
  rw [loadFrom, loadWrite_of_lt s v h]
  simp [hr]

theorem loadFrom_cons_of_ge (s : State) {i : Nat} (v : Byte) (rest : List Byte)
    (h : Config.memSize ≤ i) :
    loadFrom s i (v :: rest) = s.withStatus (.faulted ⟨.outOfRangeAddress, 0#9, i⟩) := by
  rw [loadFrom, loadWrite_of_ge s v h]
  simp

/-! ### Run control -/

theorem hostStep_of_next {s t : State} (h : step s = .next t) : hostStep s = t := by
  simp only [hostStep, h]

theorem hostStep_of_not_running {s : State} (h : s.status ≠ .running) : hostStep s = s := by
  cases hs : s.status with
  | running => exact absurd hs h
  | halted => simp only [hostStep, step_of_halted hs]
  | faulted r => simp only [hostStep, step_of_faulted hs]

@[simp] theorem runBudget_zero (s : State) : runBudget 0 s = s := rfl

@[simp] theorem runBudget_succ (k : Nat) (s : State) :
    runBudget (k + 1) s = runBudget k (hostStep s) := rfl

/-- A run under a budget is the run under its first part continued under the rest (R237). -/
theorem runBudget_add (j k : Nat) (s : State) :
    runBudget (j + k) s = runBudget k (runBudget j s) := by
  induction j generalizing s with
  | zero => rw [Nat.zero_add, runBudget_zero]
  | succ j ih => rw [Nat.succ_add, runBudget_succ, ih, runBudget_succ]

end Sys2Proof.Machine
end

