-- ==== Sys2Proof/Machine/Assembly.lean ====
section
/-! DEFINITION. The assembly syntax of 30_encoding.md R97, read as characters, and the image it stands
for (R99). The syntax is not hardware (the spec's D24); what R97 leaves open is entry 18. -/

namespace Sys2Proof.Machine.Assembly

/-- The pieces of a character list between the characters that satisfy `sep`. -/
def splitAt (sep : Char → Bool) : List Char → List (List Char)
  | [] => [[]]
  | c :: rest =>
    match splitAt sep rest with
    | [] => [[c]]
    | piece :: more => if sep c then [] :: piece :: more else (c :: piece) :: more

/-- White space inside a statement. -/
def isBlank (c : Char) : Bool := c = ' ' || c = '\t' || c = '\r'

/-- `;` or a newline separates statements. -/
def isStatementEnd (c : Char) : Bool := c = ';' || c = '\n'

/-- White space or a comma separates operands. -/
def isOperandEnd (c : Char) : Bool := isBlank c || c = ','

/-- The value of a digit in a base, none where the character is no such digit. -/
def digit (base : Nat) (c : Char) : Option Nat :=
  let n := c.toNat
  let v :=
    if 48 ≤ n ∧ n ≤ 57 then some (n - 48)
    else if 97 ≤ n ∧ n ≤ 102 then some (n - 87)
    else if 65 ≤ n ∧ n ≤ 70 then some (n - 55)
    else none
  v.filter fun d => d < base

/-- Digits read on from a value. -/
def digitsFrom (base acc : Nat) : List Char → Option Nat
  | [] => some acc
  | c :: rest =>
    match digit base c with
    | some d => digitsFrom base (acc * base + d) rest
    | none => none

/-- A numeral: at least one digit. -/
def numeral (base : Nat) : List Char → Option Nat
  | [] => none
  | c :: rest => digitsFrom base 0 (c :: rest)

/-- A number that is a byte. -/
def asByte (n : Option Nat) : Option Byte :=
  match n with
  | some v => if v < 256 then some (BitVec.ofNat 8 v) else none
  | none => none

/-- An immediate: decimal, `0x` hexadecimal or `0b` binary, 0..255. -/
def readImmediate : List Char → Option Byte
  | '0' :: 'x' :: rest => asByte (numeral 16 rest)
  | '0' :: 'b' :: rest => asByte (numeral 2 rest)
  | cs => asByte (numeral 10 cs)

/-- `R` followed by a decimal number: 0..7 a register, 8..255 the raw index byte. -/
def readRegister : List Char → Option Byte
  | 'R' :: rest => asByte (numeral 10 rest)
  | _ => none

/-- Statements of the form `MNEMONIC`. -/
def noOperand (m : List Char) : Option Instr :=
  if m = ['H', 'L', 'T'] then some .hlt
  else if m = ['N', 'O', 'P'] then some .nop
  else none

/-- Statements of the form `MNEMONIC Ra`. -/
def oneOperand (m x : List Char) : Option Instr :=
  match readRegister x with
  | none => none
  | some a =>
    if m = ['P', 'R', 'N'] then some (.prn a)
    else if m = ['P', 'U', 'S', 'H'] then some (.push a)
    else if m = ['P', 'O', 'P'] then some (.pop a)
    else if m = ['J', 'M', 'P'] then some (.jmp a)
    else if m = ['J', 'E', 'Q'] then some (.jeq a)
    else if m = ['J', 'N', 'E'] then some (.jne a)
    else none

/-- Statements of the form `MNEMONIC Ra Rb`, and `LDI Ra imm`. -/
def twoOperands (m x y : List Char) : Option Instr :=
  match readRegister x with
  | none => none
  | some a =>
    if m = ['L', 'D', 'I'] then (readImmediate y).map fun b => .ldi a b
    else if m = ['A', 'D', 'D'] then (readRegister y).map fun b => .add a b
    else if m = ['M', 'U', 'L'] then (readRegister y).map fun b => .mul a b
    else if m = ['C', 'M', 'P'] then (readRegister y).map fun b => .cmp a b
    else none

/-- One statement, none for what is no statement. DESIGN CHOICE (entry 18; R97 says only that a comma or
white space separates operands): separators are dropped wherever they stand and however many there are, so
a comma before the mnemonic, after it, after the last operand or doubled is accepted (`HLT,` is HLT), and a
statement of separators alone (white space, `,`, nothing) stands for no instruction. -/
def readStatement (cs : List Char) : Option (List Instr) :=
  match (splitAt isOperandEnd cs).filter fun w => !w.isEmpty with
  | [] => some []
  | [m] => (noOperand m).map fun i => [i]
  | [m, x] => (oneOperand m x).map fun i => [i]
  | [m, x, y] => (twoOperands m x y).map fun i => [i]
  | _ => none

/-- Statement after statement; none if one cannot be read. -/
def readStatements : List (List Char) → Option (List Instr)
  | [] => some []
  | cs :: rest =>
    match readStatement cs, readStatements rest with
    | some i, some is => some (i ++ is)
    | _, _ => none

/-- The instructions a source text stands for. -/
def assemble (source : List Char) : Option (List Instr) :=
  readStatements (splitAt isStatementEnd source)

/-- The program image of a source text: opcode and operand bytes in order, from the load address on
(R97, R99). -/
def assembleImage (source : List Char) : Option (List Byte) := (assemble source).map encodeProgram

end Sys2Proof.Machine.Assembly
end

