-- ==== Sys2Proof/Tests/Slice0.lean ====
section
/-! SUPPORT. Tests whose expected results stand in spec/95_test_vectors.md (the vector's number is in
each docstring), and one witness per statement that its hypotheses can be met, at boundary values. -/

namespace Sys2Proof.Tests

open Sys2Proof.Machine

/-! ### Helpers -/

/-- Bytes written from an address on, over the reset memory. -/
def placed (a : Nat) : List Byte → Memory → Memory
  | [], m => m
  | v :: rest, m => placed (a + 1) rest (m.write a v)

/-- The reset state with `bytes` at `pc`. -/
def machineAt (pc : Nat) (bytes : List Byte) : State :=
  { State.reset with pc := BitVec.ofNat 9 pc, mem := placed pc bytes [] }

/-- One register given a value. -/
def setR (s : State) (j : Fin 8) (v : Byte) : State := s.withRegs (s.regs.set j.val v j.isLt)

/-- The outcome is a next state that satisfies the test. -/
def nextSat (o : Host.Outcome State Fault Refusal) (p : State → Bool) : Bool :=
  match o with
  | .next t => p t
  | .fault _ => false
  | .refused _ => false

def isFault (o : Host.Outcome State Fault Refusal) (f : Fault) : Bool :=
  match o with
  | .next _ => false
  | .fault g => decide (g = f)
  | .refused _ => false

/-- The outcome is the start state in status Faulted with this record. -/
def faultsWith (s : State) (cause : Cause) (pc : PcWord) (value : Nat) : Bool :=
  nextSat (step s) fun t => decide (t = s.withStatus (.faulted ⟨cause, pc, value⟩))

def flE : Flags := ⟨true, false, false⟩

def flL : Flags := ⟨false, true, false⟩

def flG : Flags := ⟨false, false, true⟩

/-! ### Well-formedness smoke: an ill-formed term for each check -/

/-- R94: index 8 names no register. -/
theorem test_wf_refuses_first_index : (Instr.add 8#8 0#8).wf = false := by decide

theorem test_wf_refuses_second_index : (Instr.cmp 7#8 255#8).wf = false := by decide

/-- R90: an immediate has no illegal value. -/
theorem test_wf_accepts_any_immediate : (Instr.ldi 7#8 255#8).wf = true := by decide

theorem imageWf_replicate (n : Nat) (v : Byte) : imageWf (List.replicate n v) = decide (n ≤ 256) := by
  simp [imageWf, Config.loadAddr]

/-- R233: an image of 257 bytes does not fit, one of 256 does. -/
theorem test_image_wf_refuses_257 : imageWf (List.replicate 257 0#8) = false := imageWf_replicate 257 0#8

theorem test_image_wf_accepts_256 : imageWf (List.replicate 256 0#8) = true := imageWf_replicate 256 0#8

/-! ### Decoding: every row's word, bit by bit from the map of R91 (W10) -/

theorem test_decode_ldi : decode ⟨0b10000010#8, 0b00000111#8, 0b11111111#8⟩ = .instr (.ldi 7#8 255#8) := by
  decide

theorem test_decode_prn : decode ⟨0b01000111#8, 0b00000011#8, 0b11111111#8⟩ = .instr (.prn 3#8) := by
  decide

theorem test_decode_hlt : decode ⟨0b00000001#8, 0b10000010#8, 0b01000111#8⟩ = .instr .hlt := by decide

theorem test_decode_add : decode ⟨0b10100000#8, 0b00000001#8, 0b00000010#8⟩ = .instr (.add 1#8 2#8) := by
  decide

theorem test_decode_mul : decode ⟨0b10100010#8, 0b00000001#8, 0b00000010#8⟩ = .instr (.mul 1#8 2#8) := by
  decide

theorem test_decode_push : decode ⟨0b01000101#8, 0b00000101#8, 0b00000000#8⟩ = .instr (.push 5#8) := by
  decide

theorem test_decode_pop : decode ⟨0b01000110#8, 0b00000101#8, 0b00000000#8⟩ = .instr (.pop 5#8) := by
  decide

theorem test_decode_cmp : decode ⟨0b10100111#8, 0b00000001#8, 0b00000010#8⟩ = .instr (.cmp 1#8 2#8) := by
  decide

theorem test_decode_jmp : decode ⟨0b01010100#8, 0b00000010#8, 0b00000000#8⟩ = .instr (.jmp 2#8) := by
  decide

theorem test_decode_jeq : decode ⟨0b01010101#8, 0b00000010#8, 0b00000000#8⟩ = .instr (.jeq 2#8) := by
  decide

theorem test_decode_jne : decode ⟨0b01010110#8, 0b00000010#8, 0b00000000#8⟩ = .instr (.jne 2#8) := by
  decide

theorem test_decode_nop : decode ⟨0b00000000#8, 0b00000010#8, 0b00000000#8⟩ = .instr .nop := by decide

/-- C5, C6: 0xA1 is neither an ALU operation nor three bytes long. -/
theorem test_decode_unknown : decode ⟨0xA1#8, 0#8, 0#8⟩ = .unknown 0xA1#8 ∧
    (decode ⟨0xA1#8, 0#8, 0#8⟩).length = 1 := by decide

theorem test_encode_add : encode (.add 1#8 2#8) = [0xA0#8, 1#8, 2#8] := by decide

theorem test_encode_push : encode (.push 5#8) = [0x45#8, 5#8] := by decide

/-- The table numbers the first byte's bits from 0: LDI R1 9 is 0x090182. -/
theorem test_table_word_ldi : decodeTableWord 24 0x090182 = some (.ldi 1#8 9#8) := by decide

/-- Bits above `nbits` are 0. -/
theorem test_table_word_short : decodeTableWord 8 0x090182 = some (.ldi 0#8 0#8) := by decide

theorem test_table_word_unknown : decodeTableWord 24 0x0901A1 = none := by decide

/-! ### The execution cycle -/

/-- X1. -/
theorem test_hlt_at_253_halts : nextSat (step (machineAt 253 [0x01#8]))
    (fun t => t.status = .halted ∧ t.pc = 253#9) := by decide

/-- X2. -/
theorem test_hlt_at_254_faults : faultsWith (machineAt 254 [0x01#8]) .outOfRangeAddress 254#9 256 := by decide

/-- X4. -/
theorem test_step_at_256_faults : faultsWith (machineAt 256 []) .outOfRangeAddress 256#9 256 := by decide

/-- R110: no step from Halted. -/
theorem test_no_step_from_halted : isFault (step ((machineAt 0 [0x00#8]).withStatus .halted)) .noStepFromHalted := by
  decide

theorem test_no_step_from_faulted :
    isFault (step ((machineAt 0 [0x00#8]).withStatus (.faulted ⟨.outOfRangeRegister, 0#9, 8⟩))) .noStepFromFaulted := by
  decide

/-- The host's placing of a word: the next step runs it. -/
theorem test_with_fetch_word : nextSat (step (State.reset.withFetchWord 24 0x090182))
    (fun t => t.regs[1] = 9#8 ∧ t.pc = 3#9) := by decide

/-! ### LDI and PRN -/

/-- L2's operands at X5's address: R7 is not SP, and pc becomes 256. -/
theorem test_ldi_r7_at_253 : nextSat (step (machineAt 253 [0x82#8, 0x07#8, 0xFF#8]))
    (fun t => t.regs[7] = 0xFF#8 ∧ t.sp = 0xF4#8 ∧ t.pc = 256#9) := by decide

/-- L4. -/
theorem test_ldi_index_8_faults : faultsWith (machineAt 0 [0x82#8, 0x08#8, 0x01#8]) .outOfRangeRegister 0#9 8 := by
  decide

/-- L7. -/
theorem test_prn_is_unsigned : nextSat (step (setR (machineAt 0 [0x47#8, 0x03#8]) 3 0xFF#8))
    (fun t => displayed t = [255] ∧ t.pc = 2#9) := by decide

/-- L8. -/
theorem test_prn_index_9_emits_nothing :
    faultsWith ((machineAt 0 [0x47#8, 0x09#8]).withOut [1#8]) .outOfRangeRegister 0#9 9 := by decide

/-! ### ALU -/

/-- A1, W2. -/
theorem test_add_wraps : nextSat (step (setR (setR (machineAt 0 [0xA0#8, 0#8, 1#8]) 0 0xC8#8) 1 0x64#8))
    (fun t => t.regs[0] = 0x2C#8 ∧ t.regs[1] = 0x64#8 ∧ t.pc = 3#9) := by decide

/-- A7. -/
theorem test_add_checks_first_index_first :
    faultsWith (machineAt 0 [0xA0#8, 0x09#8, 0x08#8]) .outOfRangeRegister 0#9 9 := by decide

/-- A9. -/
theorem test_mul_keeps_low_byte : nextSat (step (setR (setR (machineAt 0 [0xA2#8, 0#8, 1#8]) 0 0xFF#8) 1 0xFF#8))
    (fun t => t.regs[0] = 0x01#8 ∧ t.regs[1] = 0xFF#8) := by decide

/-- A14. -/
theorem test_mul_second_index_faults :
    faultsWith (machineAt 0 [0xA2#8, 0x00#8, 0x0A#8]) .outOfRangeRegister 0#9 10 := by decide

/-- A18, A20: unsigned, and E is cleared. -/
theorem test_cmp_unsigned_not_sticky :
    nextSat (step ((setR (machineAt 0 [0xA7#8, 0#8, 1#8]) 1 0xFF#8).withFl flE)) (fun t => t.fl = flL) := by decide

/-- A21. -/
theorem test_cmp_fault_keeps_flags :
    faultsWith ((machineAt 0 [0xA7#8, 0x08#8, 0#8]).withFl flG) .outOfRangeRegister 0#9 8 := by decide

/-! ### Stack -/

/-- S2. -/
theorem test_push_wraps : nextSat (step ((setR (machineAt 0 [0x45#8, 1#8]) 1 0xAB#8).withSp 0#8))
    (fun t => t.sp = 0xFF#8 ∧ t.mem.read 0xFF = 0xAB#8 ∧ t.pc = 2#9) := by decide

/-- S4. -/
theorem test_push_over_own_operand : nextSat (step (setR (machineAt 0xF2 [0x45#8, 0x01#8]) 1 9#8))
    (fun t => t.mem.read 0xF3 = 9#8 ∧ t.sp = 0xF3#8 ∧ t.pc = 0xF4#9) := by decide

/-- S6, S5: the cell keeps its byte. -/
theorem test_pop_wraps : nextSat (step { machineAt 0 [0x46#8, 2#8] with
      sp := 0xFF#8, mem := (machineAt 0 [0x46#8, 2#8]).mem.write 0xFF 7#8 })
    (fun t => t.regs[2] = 7#8 ∧ t.sp = 0#8 ∧ t.mem.read 0xFF = 7#8) := by decide

/-- S8. -/
theorem test_pop_index_8_faults :
    faultsWith ((machineAt 0 [0x46#8, 0x08#8]).withSp 0xF3#8) .outOfRangeRegister 0#9 8 := by decide

/-! ### Branches -/

/-- B2, first step: the target 254 is accepted. -/
theorem test_jmp_accepts_254 : nextSat (step (setR (machineAt 0 [0x54#8, 0#8]) 0 0xFE#8))
    (fun t => t.pc = 254#9 ∧ t.status = .running) := by decide

/-- B3. -/
theorem test_jmp_index_8_faults : faultsWith (machineAt 0 [0x54#8, 0x08#8]) .outOfRangeRegister 0#9 8 := by decide

/-- B5. -/
theorem test_jeq_taken : nextSat (step ((setR (machineAt 0 [0x55#8, 2#8]) 2 0x11#8).withFl flE))
    (fun t => t.pc = 0x11#9) := by decide

/-- B8. -/
theorem test_jeq_not_taken_ignores_index : nextSat (step ((machineAt 0 [0x55#8, 0x08#8]).withFl flG))
    (fun t => t.pc = 2#9 ∧ t.status = .running) := by decide

/-- B13. -/
theorem test_jne_taken_before_cmp : nextSat (step (setR (machineAt 0 [0x56#8, 3#8]) 3 0x0C#8))
    (fun t => t.pc = 0x0C#9) := by decide

/-- B15. -/
theorem test_jne_taken_index_9_faults :
    faultsWith ((machineAt 0 [0x56#8, 0x09#8]).withFl flG) .outOfRangeRegister 0#9 9 := by decide

/-! ### NOP and unknown opcodes -/

/-- C2. -/
theorem test_nop_advances : nextSat (step (machineAt 5 [0x00#8])) (fun t => t = (machineAt 5 []).withPc 6#9) := by decide

/-- C3. -/
theorem test_unknown_reported : nextSat (step (machineAt 17 [0xA1#8]))
    (fun t => t.diag = [⟨17#9, 0xA1#8⟩] ∧ t.pc = 18#9 ∧ t.status = .running) := by decide

/-- C7. -/
theorem test_unknown_at_254_faults_unreported :
    faultsWith (machineAt 254 [0xA1#8]) .outOfRangeAddress 254#9 256 := by decide

/-! ### Ports, loader, assembly -/

/-- LD3. -/
theorem test_loader_places_image : (boot [0x82#8, 0x00#8, 0x01#8]).mem = [(0, 0x82#8), (2, 0x01#8)] := by
  decide

/-- R233: the write after the last cell. -/
theorem test_loader_write_256_faults :
    (loadWrite State.reset 256 1#8).status = .faulted ⟨.outOfRangeAddress, 0#9, 256⟩ := by decide

/-- R33: L is bit 2, G bit 1, E bit 0 (A15, A16, A17). -/
theorem test_flag_byte : flL.toByte = 0x04#8 ∧ flG.toByte = 0x02#8 ∧ flE.toByte = 0x01#8 := by decide

/-- R215: the trace record has the three bytes and the registers; none at 254. -/
theorem test_trace : traceRecord (machineAt 0 [0x82#8, 1#8, 2#8]) =
      some ⟨0#9, ⟨0x82#8, 1#8, 2#8⟩, State.reset.regs⟩ ∧ traceRecord (machineAt 254 []) = none := by decide

/-- The text and image of P1 (W6). -/
theorem test_assemble_source_example :
    Assembly.assembleImage "LDI R0 8; LDI R1 9; MUL R0 R1; PRN R0; HLT".toList =
      some [0x82#8, 0x00#8, 0x08#8, 0x82#8, 0x01#8, 0x09#8, 0xA2#8, 0x00#8, 0x01#8, 0x47#8, 0x00#8,
        0x01#8] := by decide

/-- R97: comma, hexadecimal, binary, raw index; 256 is no immediate. -/
theorem test_assemble_forms :
    Assembly.assemble "LDI R8, 0xFF\nLDI R255,0b101".toList = some [.ldi 8#8 255#8, .ldi 255#8 5#8] ∧
      Assembly.assemble "LDI R0 256".toList = none ∧ Assembly.assemble "SUB R0 R1".toList = none := by
  decide

/-! ### Witnesses: the hypotheses of each statement can be met, at boundary values -/

/-- Executing states at both ends of the range of pc. -/
theorem witness_executing : Executing (machineAt 0 []) ∧ Executing (machineAt 253 []) := by decide

/-- Indices at both ends of each clause. -/
theorem witness_index_clauses : (0#8 : Byte).toNat < 8 ∧ (7#8 : Byte).toNat < 8 ∧ 7 < (8#8 : Byte).toNat ∧
    7 < (255#8 : Byte).toNat := by decide

theorem witness_LdiLoadsImmediate : Executing (machineAt 253 [0x82#8, 7#8, 255#8]) ∧ (7#8 : Byte).toNat < 8 ∧
    7 < (8#8 : Byte).toNat := by decide

theorem witness_PrnEmitsRegister : Executing (machineAt 253 [0x47#8, 7#8]) ∧ (7#8 : Byte).toNat < 8 ∧
    7 < (8#8 : Byte).toNat := by decide

theorem witness_AddWritesSumModulo256 : Executing (machineAt 253 [0xA0#8, 7#8, 7#8]) ∧ (7#8 : Byte).toNat < 8 ∧
    7 < (8#8 : Byte).toNat ∧ (7#8 : Byte).toNat < 8 ∧ 7 < (255#8 : Byte).toNat := by decide

theorem witness_MulWritesLowProduct : Executing (machineAt 253 [0xA2#8, 7#8, 7#8]) ∧ (7#8 : Byte).toNat < 8 ∧
    7 < (8#8 : Byte).toNat ∧ (7#8 : Byte).toNat < 8 ∧ 7 < (255#8 : Byte).toNat := by decide

theorem witness_CmpWritesAllThreeFlags : Executing (machineAt 253 [0xA7#8, 7#8, 7#8]) ∧ (7#8 : Byte).toNat < 8 ∧
    7 < (8#8 : Byte).toNat ∧ (7#8 : Byte).toNat < 8 ∧ 7 < (255#8 : Byte).toNat := by decide

theorem witness_PushWritesBelowSp : Executing ((machineAt 253 [0x45#8, 7#8]).withSp 0#8) ∧
    ((machineAt 253 [0x45#8, 7#8]).withSp 0#8).mem.wf = true ∧ (7#8 : Byte).toNat < 8 ∧
    7 < (8#8 : Byte).toNat := by decide

theorem witness_PopReadsAtSp : Executing ((machineAt 253 [0x46#8, 7#8]).withSp 255#8) ∧ (7#8 : Byte).toNat < 8 ∧
    7 < (8#8 : Byte).toNat := by decide

/-- A JMP to its own address at 253, and targets 254 and 255. -/
theorem witness_JmpJumpsToRegister :
    Executing (setR (machineAt 253 [0x54#8, 7#8]) 7 253#8) ∧
    decodedAt (setR (machineAt 253 [0x54#8, 7#8]) 7 253#8) = .instr (.jmp 7#8) ∧
    (setR (machineAt 253 [0x54#8, 7#8]) 7 253#8).regs[7].toNat = (machineAt 253 [0x54#8, 7#8]).pc.toNat ∧
    254 ≤ (setR (machineAt 0 [0x54#8, 7#8]) 7 254#8).regs[7].toNat ∧
    254 ≤ (setR (machineAt 0 [0x54#8, 7#8]) 7 255#8).regs[7].toNat ∧ 7 < (8#8 : Byte).toNat := by decide

theorem witness_JeqJumpsWhenEqual : Executing ((machineAt 253 [0x55#8, 7#8]).withFl flE) ∧
    ((machineAt 253 [0x55#8, 7#8]).withFl flE).fl.e = true ∧ (machineAt 253 [0x55#8, 8#8]).fl.e = false ∧
    (7#8 : Byte).toNat < 8 ∧ 7 < (8#8 : Byte).toNat := by decide

theorem witness_JneJumpsWhenNotEqual : Executing (machineAt 253 [0x56#8, 7#8]) ∧
    (machineAt 253 [0x56#8, 7#8]).fl.e = false ∧ ((machineAt 253 [0x56#8, 8#8]).withFl flE).fl.e = true ∧
    (7#8 : Byte).toNat < 8 ∧ 7 < (8#8 : Byte).toNat := by decide

theorem witness_HltHaltsInPlace : Executing (machineAt 253 [0x01#8]) ∧
    ((machineAt 254 [0x01#8]).status = .running ∧ (machineAt 254 [0x01#8]).pc = 254#9 ∧
      (machineAt 254 [0x01#8]).mem.read 254 = 0x01#8) ∧
    ((machineAt 255 [0x01#8]).status = .running ∧ (machineAt 255 [0x01#8]).pc = 255#9 ∧
      (machineAt 255 [0x01#8]).mem.read 255 = 0x01#8) ∧
    ((machineAt 253 [0x01#8]).withStatus .halted).status = .halted := by decide

theorem witness_NopOnlyAdvances : Executing (machineAt 253 []) ∧
    ((machineAt 254 []).status = .running ∧ (machineAt 254 []).pc = 254#9 ∧ (machineAt 254 []).mem.read 254 = 0x00#8) ∧
    ((machineAt 255 []).status = .running ∧ (machineAt 255 []).pc = 255#9 ∧ (machineAt 255 []).mem.read 255 = 0x00#8) := by
  decide

/-- Unknown opcodes at both ends of the listed ranges, at pc 253, 254 and 255. -/
theorem witness_UnknownOpcodeReportedAndSkipped :
    (Executing (machineAt 253 [0x02#8]) ∧ (machineAt 253 [0x02#8]).mem.read 253 = 0x02#8) ∧
    ((machineAt 254 [0xFF#8]).status = .running ∧ (machineAt 254 [0xFF#8]).mem.read 254 = 0xFF#8) ∧
    ((machineAt 255 [0xFF#8]).status = .running ∧ (machineAt 255 [0xFF#8]).mem.read 255 = 0xFF#8) ∧
    ∀ op ∈ [0x02#8, 0xFF#8], op ∉ [0x82#8, 0x47#8, 0x01#8, 0xA0#8, 0xA2#8, 0x45#8, 0x46#8, 0xA7#8,
      0x54#8, 0x55#8, 0x56#8, 0x00#8] := by decide

theorem witness_StepRunsDecodedInstruction : Executing (machineAt 253 [0x82#8, 7#8, 9#8]) ∧
    decodedAt (machineAt 253 [0x82#8, 7#8, 9#8]) = .instr (.ldi 7#8 9#8) := by decide

theorem witness_StepExactlyWhenRunning : (∃ t, step (machineAt 253 []) = .next t) ∧
    ((machineAt 0 []).withStatus .halted).status ≠ .running := ⟨⟨_, rfl⟩, by decide⟩

/-- pc 254 and 256 in the first clause, 257 and 511 in the second. -/
theorem witness_FetchPastTheTopFaults : (machineAt 254 []).status = .running ∧
    (254 ≤ (machineAt 254 []).pc.toNat ∧ (machineAt 254 []).pc.toNat ≤ 256) ∧
    (254 ≤ (machineAt 256 []).pc.toNat ∧ (machineAt 256 []).pc.toNat ≤ 256) ∧
    (254 ≤ (machineAt 257 []).pc.toNat ∧ 256 < (machineAt 257 []).pc.toNat) ∧
    (254 ≤ (machineAt 511 []).pc.toNat ∧ 256 < (machineAt 511 []).pc.toNat) := by decide

theorem witness_FaultingStepCommitsNothing : ∃ t r, step (machineAt 253 [0x47#8, 8#8]) = .next t ∧
    t.status = .faulted r := ⟨_, _, rfl, rfl⟩

/-- A fetch that faults, a first and a second index that fault, and a step that does not. -/
theorem witness_FaultIsFirstConditionOfPriorityList :
    conditionAt (machineAt 254 []) = some (.outOfRangeAddress 256) ∧
    conditionAt (machineAt 253 [0xA0#8, 8#8, 9#8]) = some (.outOfRangeRegister 8) ∧
    conditionAt (machineAt 253 [0xA0#8, 7#8, 255#8]) = some (.outOfRangeRegister 255) ∧
    conditionAt (machineAt 253 [0xA0#8, 7#8, 7#8]) = none ∧
    (∃ t, step (machineAt 254 []) = .next t) ∧ (∃ t, step (machineAt 253 [0xA0#8, 7#8, 7#8]) = .next t) :=
  ⟨by decide, by decide, by decide, by decide, ⟨_, rfl⟩, ⟨_, rfl⟩⟩

/-- Index 7 is the last in range and 8 the first that is not. -/
theorem witness_UnsupportedOperationUnreachable : (7#8 : Byte).toNat < 8 ∧ 8 ≤ (8#8 : Byte).toNat ∧
    (0xA1#8 : Byte) ≠ 0xA0#8 ∧ (0xA1#8 : Byte) ≠ 0xA2#8 ∧ (0xA1#8 : Byte) ≠ 0xA7#8 ∧
    ∃ t r, step (machineAt 253 [0xA0#8, 7#8, 8#8]) = .next t ∧ t.status = .faulted r :=
  ⟨by decide, by decide, by decide, by decide, by decide, _, _, rfl, rfl⟩

theorem witness_HaltedOnlyByHlt : ∃ t, step (machineAt 253 [0x01#8]) = .next t ∧ t.status = .halted :=
  ⟨_, rfl, rfl⟩

/-- A taken jump, and a sequential advance to 256. -/
theorem witness_PcAdvancesByLengthOrJumps :
    (∃ t, step (machineAt 253 [0x54#8, 7#8]) = .next t ∧ t.status = .running) ∧
    (∃ t, step (machineAt 253 [0x82#8, 7#8]) = .next t ∧ t.status = .running) := ⟨⟨_, rfl, rfl⟩, ⟨_, rfl, rfl⟩⟩

theorem witness_FlagsWrittenOnlyByCmp : (∃ t, exec (.cmp 7#8 0#8) (machineAt 0 []) = .next t) ∧
    (∃ t, exec (.add 7#8 8#8) (machineAt 0 []) = .next t) := ⟨⟨_, rfl⟩, ⟨_, rfl⟩⟩

theorem witness_LessAndGreaterNeverRead : ∃ t, step ((machineAt 253 [0x55#8, 7#8]).withFl flL) = .next t :=
  ⟨_, rfl⟩

/-- A register that is not the destination of an ADD, and any register under a CMP. -/
theorem witness_RegistersWrittenOnlyAtDestination :
    (∃ t, exec (.cmp 7#8 0#8) (machineAt 0 []) = .next t) ∧ 7 < 8 ∧
    ∀ a b : Byte, a.toNat = 7 → Instr.cmp 7#8 0#8 ≠ .ldi a b ∧ Instr.cmp 7#8 0#8 ≠ .add a b ∧
      Instr.cmp 7#8 0#8 ≠ .mul a b ∧ Instr.cmp 7#8 0#8 ≠ .pop a :=
  ⟨⟨_, rfl⟩, by decide, by simp⟩

theorem witness_SpWrittenOnlyByPushAndPop : (∃ t, exec (.push 7#8) ((machineAt 0 []).withSp 0#8) = .next t) ∧
    (∃ t, exec (.pop 7#8) ((machineAt 0 []).withSp 255#8) = .next t) := ⟨⟨_, rfl⟩, ⟨_, rfl⟩⟩

/-- A PUSH and a cell that is not the pushed one. -/
theorem witness_MemoryWrittenOnlyByPush : (machineAt 0 []).mem.wf = true ∧
    (∃ t, exec (.push 7#8) (machineAt 0 []) = .next t) ∧ 0xF4 ≠ (pushAddress (machineAt 0 [])).toNat :=
  ⟨by decide, ⟨_, rfl⟩, by decide⟩

theorem witness_DisplayWrittenOnlyByPrn : (∃ t, exec (.prn 7#8) (machineAt 0 []) = .next t) ∧
    (∃ t, exec (.prn 8#8) (machineAt 0 []) = .next t) := ⟨⟨_, rfl⟩, ⟨_, rfl⟩⟩

theorem witness_StatusWrittenOnlyByHltOrRaise : (∃ t, exec .hlt (machineAt 0 []) = .next t) ∧
    (∃ t, exec (.jmp 8#8) (machineAt 0 []) = .next t) := ⟨⟨_, rfl⟩, ⟨_, rfl⟩⟩

/-- A running state that is not the reset state, at pc 253, with a flag set and a listed cell. -/
theorem witness_StepKeepsInvariant : Inv ((machineAt 253 [0x01#8]).withFl flE) ∧
    ∃ t, step ((machineAt 253 [0x01#8]).withFl flE) = .next t := ⟨by decide, _, rfl⟩

/-- Address 255 on one side, 256 on the other. -/
theorem witness_MemoryContracts : (machineAt 0 [1#8]).mem.wf = true ∧ (255 : Nat) ≤ 255 ∧ (255 : Nat) < 256 := by
  decide

theorem witness_RegisterPrimitives : (7 : Nat) < 8 ∧ (7 : Nat) < 8 ∧ (7 : Nat) < 255 := by decide

/-- An opcode between the rows, as the last clause of the map asks. -/
theorem witness_OpcodeMapDecodes : (0x48#8 : Byte) ∉ [0x82#8, 0x47#8, 0x01#8, 0xA0#8, 0xA2#8, 0x45#8, 0x46#8,
    0xA7#8, 0x54#8, 0x55#8, 0x56#8, 0x00#8] := by decide

theorem witness_DecodeAndEncodeAgree : decode ⟨0x47#8, 255#8, 9#8⟩ = .instr (.prn 255#8) := by decide

/-- Lengths 2 and 1, and an unknown opcode. -/
theorem witness_UnusedOperandBytesIgnored : (decode ⟨0x47#8, 255#8, 9#8⟩).length ≤ 2 ∧
    (decode ⟨0x01#8, 255#8, 9#8⟩).length = 1 ∧ (decode ⟨0xA1#8, 255#8, 9#8⟩).length = 1 := by decide

theorem witness_LoadedInstructionsDecodeInPlace :
    (encodeProgram ([.nop] ++ .prn 8#8 :: [.hlt])).length ≤ 256 ∧
    ((boot (encodeProgram ([.nop] ++ .prn 8#8 :: [.hlt]))).withPc 1#9).mem =
      (boot (encodeProgram ([.nop] ++ .prn 8#8 :: [.hlt]))).mem ∧
    ((boot (encodeProgram ([.nop] ++ .prn 8#8 :: [.hlt]))).withPc 1#9).pc.toNat =
      (encodeProgram [.nop]).length ∧
    ((boot (encodeProgram ([.nop] ++ .prn 8#8 :: [.hlt]))).withPc 1#9).pc.toNat ≤ 253 := by decide

/-- SP 0, where the push wraps. -/
theorem witness_PushPopRoundTrip : (0#8 : Byte).toNat < 8 ∧ (7#8 : Byte).toNat < 8 ∧
    ((machineAt 0 [1#8]).withSp 0#8).mem.wf = true := by decide

theorem witness_FullCircleOfPushes : (7#8 : Byte).toNat < 8 ∧ (machineAt 0 [1#8]).mem.wf = true := by decide

theorem witness_AluLaws : (0#8 : Byte).toNat < 8 ∧ (7#8 : Byte).toNat < 8 := by decide

theorem witness_ConditionalBranchesAreComplements : (7#8 : Byte).toNat < 8 := by decide

theorem witness_EqualTestsAgree : flE.atMostOne = true ∧ flL.atMostOne = true ∧
    State.reset.fl.atMostOne = true := by decide

/-- S4's start state. -/
theorem witness_PushOverItsOwnOperand :
    ((machineAt 0xF2 [0x45#8, 0x01#8]).mem.read 0xF3).toNat < 8 ∧ Executing (machineAt 0xF2 [0x45#8, 0x01#8]) ∧
    (machineAt 0xF2 [0x45#8, 0x01#8]).mem.wf = true ∧ (machineAt 0xF2 [0x45#8, 0x01#8]).mem.read 0xF2 = 0x45#8 ∧
    ((machineAt 0xF2 [0x45#8, 0x01#8]).sp.toNat + 255) % 256 = (machineAt 0xF2 [0x45#8, 0x01#8]).pc.toNat + 1 := by
  decide

/-- At 254 with nothing listed, and at 0, the state of X6. -/
theorem witness_RunningOffTheEndFaults : ((machineAt 254 []).status = .running ∧ (machineAt 254 []).pc.toNat ≤ 254) ∧
    ((machineAt 0 []).status = .running ∧ (machineAt 0 []).pc.toNat ≤ 254) ∧
    ∀ x : Nat, (machineAt 0 []).pc.toNat ≤ x → x < 256 → (machineAt 0 []).mem.read x = 0#8 :=
  ⟨by decide, by decide, fun _ _ _ => rfl⟩

/-- A run that is Running when its budget is spent, and runs that are not. -/
theorem witness_BudgetedRunEndsOnceOrGoesOn : (runBudget 1 (machineAt 0 [])).status = .running ∧
    (runBudget 1 (machineAt 253 [0x01#8])).status ≠ .running ∧
    (runBudget 1 (machineAt 254 [])).status ≠ .running := by decide

/-- LD1 and LD2's lengths. -/
theorem witness_LoaderPlacesImage : (List.replicate 256 (1#8 : Byte)).length ≤ 256 ∧
    256 < (List.replicate 257 (1#8 : Byte)).length :=
  ⟨le_of_eq List.length_replicate, lt_of_lt_of_eq (by decide) List.length_replicate.symm⟩

/-- The port open with the engine Running, open with it Faulted by a load write, and closed. -/
theorem witness_FirstStepClosesLoadPort :
    (Session.reset.started = false ∧ Session.reset.engine.status = .running) ∧
    (loadWrite State.reset 256 0#8).status ≠ .running ∧
    ((Session.mk State.reset true).started = true ∧ Request.step ≠ .reset ∧
      ∃ y, (Session.mk State.reset true).serve .step = .accepted y) :=
  ⟨by decide, by decide, rfl, by decide, _, rfl⟩

theorem witness_StatusPortCodes : (machineAt 0 []).status = .running ∧
    ((machineAt 0 []).withStatus .halted).status = .halted ∧
    ((machineAt 0 []).withStatus (.faulted ⟨.outOfRangeRegister, 0#9, 8⟩)).status =
      .faulted ⟨.outOfRangeRegister, 0#9, 8⟩ := by decide

/-- An HLT at the last address it can run from, and a fetch past the top. -/
theorem witness_EndedRunStoodAtHltOrCondition : (machineAt 253 [0x01#8]).status = .running ∧
    runEnd (runBudget 1 (machineAt 253 [0x01#8])) = .halted ∧
    runEnd (runBudget 1 (machineAt 254 [])) = .faulted ⟨.outOfRangeAddress, 254#9, 256⟩ := by decide

end Sys2Proof.Tests
end

section
/-! PROOFS. Scope (00_scope.md): the register primitives. -/

namespace Sys2Proof.Proofs

open Sys2Proof.Machine

/-- R9, R24: the register file after a write of `v` to Ri holds `v mod 256` there. -/
theorem regs_set_ofNat_self (s : State) {i : Nat} (v : Nat) (h : i < Config.numGpr) :
    (s.regs.set i (BitVec.ofNat 8 v) h)[i].toNat = v % 256 := by
  rw [Vector.getElem_set_self, BitVec.toNat_ofNat]

/-- Settles O34: above 7 both primitives raise with the index unmasked; at most 7 the written file is
`Vector.set` of the old one, so Ri holds the byte and every other register is read through. -/
theorem registerPrimitives : Obligations.RegisterPrimitives := by
  intro s i v
  constructor
  · intro hi
    exact ⟨readReg_of_ge s hi, writeReg_of_ge s v hi⟩
  · intro hi
    exact ⟨readReg_of_lt s hi, s.regs.set i (BitVec.ofNat 8 v) hi, writeReg_of_lt s v hi,
      regs_set_ofNat_self s v hi, fun _ hj hne => Vector.getElem_set_ne hi hj hne.symm⟩

end Sys2Proof.Proofs
end

section
/-! PROOFS. The execute phase (40_execution_cycle.md): an instruction either enters Faulted at its first
bad index, or completes; `Completes` writes out the state it then leaves, instruction by instruction. -/

namespace Sys2Proof.Proofs

open Sys2Proof.Machine

/-! ### Used indices -/

/-- No condition is found exactly where every index names a register. -/
theorem badIndex_eq_none {xs : List Byte} :
    badIndex xs = none ↔ ∀ x ∈ xs, x.toNat < Config.numGpr := by
  induction xs with
  | nil => simp [badIndex]
  | cons x rest ih =>
    unfold badIndex
    split <;> simp_all

/-- A condition found in one index is that index, out of range. -/
theorem badIndex_singleton {x : Byte} {c : Condition} (h : badIndex [x] = some c) :
    Config.numGpr ≤ x.toNat ∧ c = .outOfRangeRegister x.toNat := by
  obtain ⟨y, hy, hge, hc⟩ := badIndex_some h
  obtain rfl := List.mem_singleton.mp hy
  exact ⟨hge, hc⟩

theorem readOperand_of_badIndex (s : State) {a : Byte} {c : Condition} (h : badIndex [a] = some c) :
    readOperand s a = .error c := by
  obtain ⟨hge, rfl⟩ := badIndex_singleton h
  exact readOperand_of_ge s hge

theorem writeOperand_of_badIndex (s : State) {a : Byte} (v : Nat) {c : Condition}
    (h : badIndex [a] = some c) : writeOperand s a v = .error c := by
  obtain ⟨hge, rfl⟩ := badIndex_singleton h
  exact writeOperand_of_ge s v hge

theorem jumpTo_of_badIndex (s : State) {a : Byte} {c : Condition} (h : badIndex [a] = some c) :
    jumpTo a s = .error c := by
  obtain ⟨hge, rfl⟩ := badIndex_singleton h
  exact jumpTo_of_ge s hge

/-- The list finds index A before index B, as the reads do (R206 steps 5 and 6). -/
theorem readOperands_of_badIndex (s : State) {a b : Byte} {c : Condition}
    (h : badIndex [a, b] = some c) : readOperands s a b = .error c := by
  by_cases ha : a.toNat < Config.numGpr
  · obtain ⟨hb, rfl⟩ := badIndex_singleton (by simpa only [badIndex, if_pos ha] using h)
    exact readOperands_of_second_ge s ha hb
  · obtain rfl : Condition.outOfRangeRegister a.toNat = c := by
      simpa only [badIndex, if_neg ha, Option.some.injEq] using h
    exact readOperands_of_first_ge s b (Nat.not_lt.mp ha)

theorem aluStep_of_badIndex (s : State) (select : Byte) {a b : Byte} {c : Condition}
    (h : badIndex [a, b] = some c) : aluStep select a b s = .error c :=
  aluStep_of_error (alu_of_bad_operand select (readOperands_of_badIndex s h))

/-- The indices an instruction uses are operands of it (R89). -/
theorem mem_indexOperands_of_used {i : Instr} {e : Bool} {x : Byte} (h : x ∈ usedIndices i e) :
    x ∈ i.indexOperands := by
  cases i with
  | jeq a => cases e with
    | true => exact h
    | false => cases h
  | jne a => cases e with
    | true => cases h
    | false => exact h
  | _ => exact h

/-! ### What an instruction leaves when it completes -/

/-- `Completes s i t`: from `s` the indices that instruction `i` uses name registers, and `t` is the
state its rule gives (R132 to R134, R150, R151, R160, R161, R175 to R177, R190, R191). -/
inductive Completes (s : State) : Instr → State → Prop
  | ldi (a b : Byte) (ha : a.toNat < Config.numGpr) :
    Completes s (.ldi a b) (advance (s.withRegs (s.regs.set a.toNat b ha)) 3)
  | prn (a : Byte) (ha : a.toNat < Config.numGpr) :
    Completes s (.prn a) (advance (emit s s.regs[a.toNat]) 2)
  | hlt : Completes s .hlt (halt s)
  | add (a b : Byte) (ha : a.toNat < Config.numGpr) (hb : b.toNat < Config.numGpr) :
    Completes s (.add a b) (advance (s.withRegs (s.regs.set a.toNat
      (BitVec.ofNat 8 (s.regs[a.toNat].toNat + s.regs[b.toNat].toNat)) ha)) 3)
  | mul (a b : Byte) (ha : a.toNat < Config.numGpr) (hb : b.toNat < Config.numGpr) :
    Completes s (.mul a b) (advance (s.withRegs (s.regs.set a.toNat
      (BitVec.ofNat 8 (s.regs[a.toNat].toNat * s.regs[b.toNat].toNat)) ha)) 3)
  | push (a : Byte) (ha : a.toNat < Config.numGpr) :
    Completes s (.push a) (advance ((s.withMem
      (s.mem.write (pushAddress s).toNat s.regs[a.toNat])).withSp (pushAddress s)) 2)
  | pop (a : Byte) (ha : a.toNat < Config.numGpr) :
    Completes s (.pop a) (advance (dropByte
      (s.withRegs (s.regs.set a.toNat (s.mem.read s.sp.toNat) ha))) 2)
  | cmp (a b : Byte) (ha : a.toNat < Config.numGpr) (hb : b.toNat < Config.numGpr) :
    Completes s (.cmp a b) (advance (s.withFl (compareFlags s.regs[a.toNat] s.regs[b.toNat])) 3)
  | jmp (a : Byte) (ha : a.toNat < Config.numGpr) : Completes s (.jmp a) (jump s s.regs[a.toNat])
  | jeqTaken (a : Byte) (he : s.fl.e = true) (ha : a.toNat < Config.numGpr) :
    Completes s (.jeq a) (jump s s.regs[a.toNat])
  | jeqNotTaken (a : Byte) (he : s.fl.e = false) : Completes s (.jeq a) (advance s 2)
  | jneTaken (a : Byte) (he : s.fl.e = false) (ha : a.toNat < Config.numGpr) :
    Completes s (.jne a) (jump s s.regs[a.toNat])
  | jneNotTaken (a : Byte) (he : s.fl.e = true) : Completes s (.jne a) (advance s 2)
  | nop : Completes s .nop (advance s 1)

/-- Where an instruction completes, `exec` answers the state its rule gives. -/
theorem exec_of_completes {s t : State} {i : Instr} (h : Completes s i t) : exec i s = .next t := by
  cases h with
  | ldi a b ha =>
    simp only [exec, execLdi, writeOperand_of_lt s _ ha, immediate, BitVec.ofNat_toNat,
      BitVec.setWidth_eq]
    rfl
  | prn a ha => simp only [exec, execPrn, readOperand_of_lt s ha]; rfl
  | hlt => rfl
  | add a b ha hb =>
    have hw := alu_of_operands (select := Config.selectAdd) (readOperands_of_lt s ha hb)
    rw [if_pos rfl, writeOperand_of_lt s _ ha] at hw
    simp only [exec, execAdd, aluStep_of_ok hw, commit_ok]
  | mul a b ha hb =>
    have hw := alu_of_operands (select := Config.selectMul) (readOperands_of_lt s ha hb)
    rw [if_neg (by decide), if_pos rfl, writeOperand_of_lt s _ ha] at hw
    simp only [exec, execMul, aluStep_of_ok hw, commit_ok]
  | push a ha =>
    simp only [exec, execPush, readOperand_of_lt s ha, bind, Except.bind, pushByte_ok]
    rfl
  | pop a ha =>
    simp only [exec, execPop, memRead_popAddress, bind, Except.bind, writeOperand_of_lt s _ ha,
      BitVec.ofNat_toNat, BitVec.setWidth_eq]
    rfl
  | cmp a b ha hb =>
    have hw := alu_of_operands (select := Config.selectCmp) (readOperands_of_lt s ha hb)
    rw [if_neg (by decide), if_neg (by decide), if_pos rfl] at hw
    simp only [exec, execCmp, aluStep_of_ok hw, commit_ok]
  | jmp a ha => simp only [exec, execJmp, jumpTo_of_lt s ha, commit_ok]
  | jeqTaken a he ha => simp only [exec, execJeq, he, branchIf_taken, jumpTo_of_lt s ha, commit_ok]
  | jeqNotTaken a he => simp only [exec, execJeq, he, branchIf_not_taken, commit_ok]
  | jneTaken a he ha =>
    simp only [exec, execJne, he, Bool.not_false, branchIf_taken, jumpTo_of_lt s ha, commit_ok]
  | jneNotTaken a he => simp only [exec, execJne, he, Bool.not_true, branchIf_not_taken, commit_ok]
  | nop => rfl

/-- Where a used index is bad, `exec` enters Faulted with the first one and writes nothing else. -/
theorem exec_of_badIndex {s : State} {i : Instr} {c : Condition}
    (h : badIndex (usedIndices i s.fl.e) = some c) : exec i s = .next (enterFault c s) := by
  cases i with
  | ldi a b => simp only [exec, execLdi, writeOperand_of_badIndex s _ h]; rfl
  | prn a => simp only [exec, execPrn, readOperand_of_badIndex s h]; rfl
  | hlt => cases h
  | add a b => simp only [exec, execAdd, aluStep_of_badIndex s _ h, commit_error]
  | mul a b => simp only [exec, execMul, aluStep_of_badIndex s _ h, commit_error]
  | push a => simp only [exec, execPush, readOperand_of_badIndex s h]; rfl
  | pop a =>
    simp only [exec, execPop, memRead_popAddress, bind, Except.bind, writeOperand_of_badIndex s _ h,
      commit_error]
  | cmp a b => simp only [exec, execCmp, aluStep_of_badIndex s _ h, commit_error]
  | jmp a => simp only [exec, execJmp, jumpTo_of_badIndex s h, commit_error]
  | jeq a =>
    cases he : s.fl.e with
    | true =>
      rw [he] at h
      simp only [exec, execJeq, he, branchIf_taken, jumpTo_of_badIndex s h, commit_error]
    | false => rw [he] at h; cases h
  | jne a =>
    cases he : s.fl.e with
    | true => rw [he] at h; cases h
    | false =>
      rw [he] at h
      simp only [exec, execJne, he, Bool.not_false, branchIf_taken, jumpTo_of_badIndex s h,
        commit_error]
  | nop => cases h

/-- Where every used index names a register, the instruction completes. -/
theorem completes_of_used_lt {s : State} {i : Instr}
    (h : ∀ x ∈ usedIndices i s.fl.e, x.toNat < Config.numGpr) : ∃ t, Completes s i t := by
  cases i with
  | ldi a b => exact ⟨_, .ldi a b (h a (.head _))⟩
  | prn a => exact ⟨_, .prn a (h a (.head _))⟩
  | hlt => exact ⟨_, .hlt⟩
  | add a b => exact ⟨_, .add a b (h a (.head _)) (h b (.tail _ (.head _)))⟩
  | mul a b => exact ⟨_, .mul a b (h a (.head _)) (h b (.tail _ (.head _)))⟩
  | push a => exact ⟨_, .push a (h a (.head _))⟩
  | pop a => exact ⟨_, .pop a (h a (.head _))⟩
  | cmp a b => exact ⟨_, .cmp a b (h a (.head _)) (h b (.tail _ (.head _)))⟩
  | jmp a => exact ⟨_, .jmp a (h a (.head _))⟩
  | jeq a =>
    cases he : s.fl.e with
    | true => rw [he] at h; exact ⟨_, .jeqTaken a he (h a (.head _))⟩
    | false => exact ⟨_, .jeqNotTaken a he⟩
  | jne a =>
    cases he : s.fl.e with
    | true => exact ⟨_, .jneNotTaken a he⟩
    | false => rw [he] at h; exact ⟨_, .jneTaken a he (h a (.head _))⟩
  | nop => exact ⟨_, .nop⟩

/-- Everything the execute phase can do: complete, or enter Faulted with the first bad index. -/
theorem exec_cases {i : Instr} {s t : State} (h : exec i s = .next t) :
    Completes s i t ∨ ∃ c, badIndex (usedIndices i s.fl.e) = some c ∧ t = enterFault c s := by
  cases hb : badIndex (usedIndices i s.fl.e) with
  | none =>
    obtain ⟨u, hu⟩ := completes_of_used_lt (badIndex_eq_none.mp hb)
    have : Host.Outcome.next u = .next t := (exec_of_completes hu).symm.trans h
    obtain rfl : u = t := by injection this
    exact .inl hu
  | some c =>
    have : Host.Outcome.next (enterFault c s) = .next t := (exec_of_badIndex hb).symm.trans h
    exact .inr ⟨c, rfl, by injection this with this; exact this.symm⟩

end Sys2Proof.Proofs
end

section
/-! PROOFS. Frames over all instructions (10_state.md): which instruction writes which field. A raise
writes the status alone, so each proof looks only at the instructions that complete. -/

namespace Sys2Proof.Proofs

open Sys2Proof.Machine

/-- R35: an instruction that completes keeps the status, or is HLT and leaves only the status changed. -/
theorem Completes.status {s t : State} {i : Instr} (h : Completes s i t) :
    t.status = s.status ∨ (i = .hlt ∧ t = halt s) := by
  cases h with
  | hlt => exact .inr ⟨rfl, rfl⟩
  | _ => exact .inl rfl

/-- R32: an instruction that completes keeps FL, or is CMP and sets exactly one flag. -/
theorem Completes.fl {s t : State} {i : Instr} (h : Completes s i t) :
    t.fl = s.fl ∨ ∃ a b, i = .cmp a b ∧ t.fl.count = 1 := by
  cases h with
  | cmp a b => exact .inr ⟨a, b, rfl, compareFlags_count _ _⟩
  | _ => exact .inl rfl

/-- Settles O22: FL changes only where a CMP completes, which sets exactly one flag. -/
theorem flagsWrittenOnlyByCmp : Obligations.FlagsWrittenOnlyByCmp := by
  intro i s t h
  obtain hc | ⟨c, -, rfl⟩ := exec_cases h
  · exact hc.fl
  · exact .inl rfl

/-- Settles O24: the four instructions that set a register set the one operand A names, so register j
is read through unless A is j. -/
theorem registersWrittenOnlyAtDestination : Obligations.RegistersWrittenOnlyAtDestination := by
  intro i s t j hj h hi
  obtain hc | ⟨c, -, rfl⟩ := exec_cases h
  · cases hc with
    | ldi a b ha => exact Vector.getElem_set_ne ha hj fun e => (hi a b e).1 rfl
    | add a b ha => exact Vector.getElem_set_ne ha hj fun e => (hi a b e).2.1 rfl
    | mul a b ha => exact Vector.getElem_set_ne ha hj fun e => (hi a b e).2.2.1 rfl
    | pop a ha => exact Vector.getElem_set_ne ha hj fun e => (hi a 0#8 e).2.2.2 rfl
    | _ => rfl
  · rfl

/-- R30: the push address as a natural number. -/
theorem pushAddress_toNat (s : State) : (pushAddress s).toNat = (s.sp.toNat + 255) % 256 := by
  simp [pushAddress, BitVec.toNat_sub, Nat.add_comm]

/-- Settles O25: a PUSH that completes leaves its push address in SP, a POP the address above SP. -/
theorem spWrittenOnlyByPushAndPop : Obligations.SpWrittenOnlyByPushAndPop := by
  intro i s t h
  obtain hc | ⟨c, -, rfl⟩ := exec_cases h
  · cases hc with
    | push a => exact .inr (.inl ⟨a, rfl, pushAddress_toNat s⟩)
    | pop a => exact .inr (.inr ⟨a, rfl, BitVec.toNat_add s.sp 1#8⟩)
    | _ => exact .inl rfl
  · exact .inl rfl

/-- Settles O27: of the instructions that complete PRN alone writes `out`, and none writes `diag`. -/
theorem displayWrittenOnlyByPrn : Obligations.DisplayWrittenOnlyByPrn := by
  intro i s t h
  obtain hc | ⟨c, -, rfl⟩ := exec_cases h
  · cases hc with
    | prn a ha => exact ⟨rfl, .inr ⟨a, ha, rfl, rfl⟩⟩
    | _ => exact ⟨rfl, .inl rfl⟩
  · exact ⟨rfl, .inl rfl⟩

/-- Settles O28: what completes keeps the status or is HLT, and what raises records its first bad index,
which is an operand of the instruction. -/
theorem statusWrittenOnlyByHltOrRaise : Obligations.StatusWrittenOnlyByHltOrRaise := by
  intro i s t h
  obtain hc | ⟨c, hbad, rfl⟩ := exec_cases h
  · obtain hst | ⟨rfl, rfl⟩ := hc.status
    · exact .inl hst
    · exact .inr (.inl ⟨rfl, rfl⟩)
  · obtain ⟨x, hx, hge, rfl⟩ := badIndex_some hbad
    exact .inr (.inr ⟨x, hge, mem_indexOperands_of_used hx, rfl⟩)

end Sys2Proof.Proofs
end

section
/-! PROOFS. The step: where it halts, where it leaves pc, and what it does not read
(10_state.md R27, R32, R35). -/

namespace Sys2Proof.Proofs

open Sys2Proof.Machine

/-! ### The decoded instruction -/

/-- R117: the step of an instruction that was fetched is its execution. -/
theorem step_of_instr {s : State} {i : Instr} (hrun : s.status = .running) (hf : Fetchable s)
    (hd : decodedAt s = .instr i) : step s = exec i s := by
  rw [step_of_fetchable hrun hf, hd, runDecoded]

/-- R192: the step of an unknown opcode reports it and advances by one byte. -/
theorem step_of_unknown {s : State} {op : Byte} (hrun : s.status = .running) (hf : Fetchable s)
    (hd : decodedAt s = .unknown op) : step s = .next (advance (report s op) 1) := by
  rw [step_of_fetchable hrun hf, hd, runDecoded, execUnknown_next]

/-! ### Halting -/

/-- Settles O20: a fault and an unknown opcode leave no status Halted, and of the instructions only HLT
does, by changing nothing but the status. -/
theorem haltedOnlyByHlt : Obligations.HaltedOnlyByHlt := by
  intro s t h ht
  obtain ⟨hrun, ⟨-, rfl⟩ | ⟨hf, i, hd, hx⟩ | ⟨-, op, -, rfl⟩⟩ := step_cases h
  · cases ht
  · obtain hc | ⟨c, -, rfl⟩ := exec_cases hx
    · obtain hst | ⟨rfl, rfl⟩ := hc.status
      · rw [hst, hrun] at ht; cases ht
      · exact ⟨hf, hd, rfl⟩
    · cases ht
  · rw [advance_status, report_status, hrun] at ht; cases ht

/-! ### The program counter -/

/-- The instruction jumps to register `a` when the Equal flag is `e` (R175 to R177). -/
def JumpsTo (i : Instr) (e : Bool) (a : Byte) : Prop :=
  i = .jmp a ∨ (i = .jeq a ∧ e = true) ∨ (i = .jne a ∧ e = false)

/-- R119: after a fetch that succeeded the advance is a sum of naturals, not reduced. -/
theorem advance_pc_toNat {s t : State} (hpc : t.pc = s.pc) (hf : Fetchable s) {n : Nat}
    (hn : n ≤ 3) : (advance t n).pc.toNat = s.pc.toNat + n := by
  have hf' : s.pc.toNat + 2 < 256 := hf
  rw [advance_pc, hpc, BitVec.toNat_add, BitVec.toNat_ofNat]
  omega

/-- R115: a jump target is the byte itself. -/
theorem jump_pc_toNat (s : State) (v : Byte) : (jump s v).pc.toNat = v.toNat := by
  have := v.isLt
  rw [jump_pc, BitVec.toNat_setWidth]
  omega

/-- Where an instruction that completes leaves pc: at a register's byte, in place, or its length on. -/
theorem Completes.pc {s t : State} {i : Instr} (h : Completes s i t) (hf : Fetchable s) :
    (∃ (a : Byte) (_ : a.toNat < 8), JumpsTo i s.fl.e a ∧ t.pc.toNat = s.regs[a.toNat].toNat) ∨
    (i = .hlt ∧ t = halt s) ∨
    ((∀ a, ¬ JumpsTo i s.fl.e a) ∧ t.pc.toNat = s.pc.toNat + i.length) := by
  cases h with
  | jmp a ha => exact .inl ⟨a, ha, .inl rfl, jump_pc_toNat s _⟩
  | jeqTaken a he ha => exact .inl ⟨a, ha, .inr (.inl ⟨rfl, he⟩), jump_pc_toNat s _⟩
  | jneTaken a he ha => exact .inl ⟨a, ha, .inr (.inr ⟨rfl, he⟩), jump_pc_toNat s _⟩
  | hlt => exact .inr (.inl ⟨rfl, rfl⟩)
  | jeqNotTaken a he =>
    exact .inr (.inr ⟨by simp [JumpsTo, he], advance_pc_toNat rfl hf (by decide)⟩)
  | jneNotTaken a he =>
    exact .inr (.inr ⟨by simp [JumpsTo, he], advance_pc_toNat rfl hf (by decide)⟩)
  | _ => exact .inr (.inr ⟨by simp [JumpsTo], advance_pc_toNat rfl hf (by decide)⟩)

/-- Settles O21: a step that stays Running completed an instruction other than HLT, or skipped an unknown
opcode, whose length is 1. -/
theorem pcAdvancesByLengthOrJumps : Obligations.PcAdvancesByLengthOrJumps := by
  intro s t h ht
  obtain ⟨-, ⟨-, rfl⟩ | ⟨hf, i, hd, hx⟩ | ⟨hf, op, hd, rfl⟩⟩ := step_cases h
  · cases ht
  · obtain hc | ⟨c, -, rfl⟩ := exec_cases hx
    · rw [hd]
      obtain ⟨a, ha, hj, hpc⟩ | ⟨-, rfl⟩ | ⟨hj, hpc⟩ := hc.pc hf
      · exact .inl ⟨a, ha, by simpa [JumpsTo] using hj, hpc⟩
      · cases ht
      · exact .inr ⟨by simpa [JumpsTo] using hj, hpc⟩
    · cases ht
  · rw [hd]
    exact .inr ⟨by simp, advance_pc_toNat (report_pc s op) hf (by decide)⟩

/-! ### L and G -/

/-- The two states agree on every field but FL, and on E. -/
def AgreeButLessGreater (s t : State) : Prop := s.withFl t.fl = t ∧ s.fl.e = t.fl.e

/-- An instruction completes with other values of L and G too, and they reach no other field. -/
theorem Completes.agreeButLessGreater {s t : State} {i : Instr} (l g : Bool) (h : Completes s i t) :
    ∃ t', Completes (withLessGreater l g s) i t' ∧ AgreeButLessGreater t' t := by
  cases h with
  | ldi a b ha => exact ⟨_, .ldi a b ha, rfl, rfl⟩
  | prn a ha => exact ⟨_, .prn a ha, rfl, rfl⟩
  | hlt => exact ⟨_, .hlt, rfl, rfl⟩
  | add a b ha hb => exact ⟨_, .add a b ha hb, rfl, rfl⟩
  | mul a b ha hb => exact ⟨_, .mul a b ha hb, rfl, rfl⟩
  | push a ha => exact ⟨_, .push a ha, rfl, rfl⟩
  | pop a ha => exact ⟨_, .pop a ha, rfl, rfl⟩
  | cmp a b ha hb => exact ⟨_, .cmp a b ha hb, rfl, rfl⟩
  | jmp a ha => exact ⟨_, .jmp a ha, rfl, rfl⟩
  | jeqTaken a he ha => exact ⟨_, .jeqTaken (s := withLessGreater l g s) a he ha, rfl, rfl⟩
  | jeqNotTaken a he => exact ⟨_, .jeqNotTaken a he, rfl, rfl⟩
  | jneTaken a he ha => exact ⟨_, .jneTaken (s := withLessGreater l g s) a he ha, rfl, rfl⟩
  | jneNotTaken a he => exact ⟨_, .jneNotTaken a he, rfl, rfl⟩
  | nop => exact ⟨_, .nop, rfl, rfl⟩

/-- Settles O23: status, pc, memory and E are kept by `withLessGreater`, so the step takes the same path,
and each path leaves states that agree. -/
theorem lessAndGreaterNeverRead : Obligations.LessAndGreaterNeverRead := by
  intro l g s t h
  have hpath : ∃ t', step (withLessGreater l g s) = .next t' ∧ AgreeButLessGreater t' t := by
    obtain ⟨hrun, ⟨hf, rfl⟩ | ⟨hf, i, hd, hx⟩ | ⟨hf, op, hd, rfl⟩⟩ := step_cases h
    · exact ⟨_, step_of_not_fetchable (s := withLessGreater l g s) hrun hf, rfl, rfl⟩
    · rw [step_of_instr (s := withLessGreater l g s) hrun hf hd]
      obtain hc | ⟨c, hbad, rfl⟩ := exec_cases hx
      · obtain ⟨t', hc', hagree⟩ := hc.agreeButLessGreater l g
        exact ⟨t', exec_of_completes hc', hagree⟩
      · exact ⟨_, exec_of_badIndex (s := withLessGreater l g s) hbad, rfl, rfl⟩
    · exact ⟨_, step_of_unknown (s := withLessGreater l g s) hrun hf hd, rfl, rfl⟩
  exact hpath

end Sys2Proof.Proofs
end

section
/-! PROOFS. The invariant of the engine (`Inv`; 10_state.md R32, R36, 40_execution_cycle.md R119,
45_control.md R190): it holds at reset and every step keeps it, one component at a time. -/

namespace Sys2Proof.Proofs

open Sys2Proof.Machine

/-! ### Reset -/

/-- Settles O29: at reset no cell is listed, pc is 0, no flag is set and the status is Running. -/
theorem resetMeetsInvariant : Obligations.ResetMeetsInvariant :=
  ⟨Memory.wf_reset, by decide, by decide, rfl⟩

/-- Settles O32: every field is the one that `State.reset` gives. -/
theorem resetValues : Obligations.ResetValues :=
  ⟨Memory.read_nil, fun _ hj => Vector.getElem_replicate hj, rfl, rfl, rfl, rfl, rfl, rfl⟩

/-! ### The status -/

theorem statusWf_of_running {s : State} (h : s.status = .running) : statusWf s = true := by
  simp only [statusWf, h]

/-- R190, R120: Halted fits where an HLT can be fetched. -/
theorem statusWf_halt {s : State} (hf : Fetchable s) (hop : s.mem.read s.pc.toNat = 0x01#8) :
    statusWf (halt s) = true := by
  simp only [statusWf, halt_status, halt_pc, halt_mem, hop, Fetchable] at hf ⊢
  simp [hf]

/-- R205: the record of an address beyond the cells fits. -/
theorem statusWf_enterFault_address (s : State) {a : Nat} (h : Config.memSize ≤ a) :
    statusWf (enterFault (.outOfRangeAddress a) s) = true := by
  simpa [statusWf, Condition.record, Condition.cause, Condition.value] using h

/-- R205: the record of an index byte that names no register fits. -/
theorem statusWf_enterFault_index (s : State) {x : Byte} (h : Config.numGpr ≤ x.toNat) :
    statusWf (enterFault (.outOfRangeRegister x.toNat) s) = true := by
  simpa [statusWf, Condition.record, Condition.cause, Condition.value, x.isLt] using h

/-- Fault entry writes the status alone, so the invariant asks only for the record (R207). -/
theorem inv_enterFault {s : State} {c : Condition} (h : Inv s)
    (hst : statusWf (enterFault c s) = true) : Inv (enterFault c s) := by
  obtain ⟨hmem, hpc, hfl, -⟩ := h
  exact ⟨hmem, hpc, hfl, hst⟩

/-! ### An instruction that completes -/

/-- One row of the decoder: it is the row that is read, or the rows below it are. -/
theorem decode_row {op code : Byte} {i j : Instr} {below : Decoded}
    (h : (if op = code then .instr j else below) = Decoded.instr i) :
    (op = code ∧ j = i) ∨ below = .instr i := by
  by_cases hop : op = code
  · rw [if_pos hop] at h
    exact .inl ⟨hop, Decoded.instr.inj h⟩
  · rw [if_neg hop] at h
    exact .inr h

/-- The bytes an instruction is decoded from begin with its opcode (R91). -/
theorem op_of_decode_instr {f : Fetched} {i : Instr} (h : decode f = .instr i) : f.op = i.opcode := by
  unfold decode at h
  iterate 12 (obtain ⟨hop, rfl⟩ | h := decode_row h; · exact hop)
  cases h

theorem Completes.mem_wf {s t : State} {i : Instr} (h : Completes s i t) (hm : s.mem.wf = true) :
    t.mem.wf = true := by
  cases h with
  | push a => exact Memory.wf_write hm _ (byte_lt_memSize _)
  | _ => exact hm

theorem instr_length_le (i : Instr) : i.length ≤ 3 := by
  cases i <;> simp [Instr.length]

theorem Completes.pc_le {s t : State} {i : Instr} (h : Completes s i t) (hf : Fetchable s) :
    t.pc.toNat ≤ 256 := by
  have hf' : s.pc.toNat + 2 < 256 := hf
  obtain ⟨a, ha, -, hpc⟩ | ⟨-, rfl⟩ | ⟨-, hpc⟩ := h.pc hf
  · have := s.regs[a.toNat].isLt
    omega
  · rw [halt_pc]
    omega
  · have := instr_length_le i
    omega

theorem Completes.fl_atMostOne {s t : State} {i : Instr} (h : Completes s i t)
    (hfl : s.fl.atMostOne = true) : t.fl.atMostOne = true := by
  obtain heq | ⟨-, -, -, hcount⟩ := h.fl
  · rwa [heq]
  · exact decide_eq_true hcount.le

theorem Completes.status_wf {s t : State} {i : Instr} (h : Completes s i t)
    (hrun : s.status = .running) (hf : Fetchable s) (hd : decodedAt s = .instr i) :
    statusWf t = true := by
  obtain hst | ⟨rfl, rfl⟩ := h.status
  · exact statusWf_of_running (hst.trans hrun)
  · exact statusWf_halt hf (op_of_decode_instr hd)

/-- Settles O30: a fault writes the status alone and its record fits; an instruction that completes keeps
each component of the invariant; an unknown opcode moves pc by 1 and stays Running. -/
theorem stepKeepsInvariant : Obligations.StepKeepsInvariant := by
  intro s t hinv h
  have ⟨hmem, _, hfl, _⟩ := hinv
  obtain ⟨hrun, ⟨-, rfl⟩ | ⟨hf, i, hd, hx⟩ | ⟨hf, op, -, rfl⟩⟩ := step_cases h
  · exact inv_enterFault hinv (statusWf_enterFault_address s (le_max_right _ _))
  · obtain hc | ⟨c, hbad, rfl⟩ := exec_cases hx
    · exact ⟨hc.mem_wf hmem, hc.pc_le hf, hc.fl_atMostOne hfl, hc.status_wf hrun hf hd⟩
    · obtain ⟨x, -, hge, rfl⟩ := badIndex_some hbad
      exact inv_enterFault hinv (statusWf_enterFault_index s hge)
  · have hpc := advance_pc_toNat (report_pc s op) hf (n := 1) (by decide)
    have hf' : s.pc.toNat + 2 < 256 := hf
    exact ⟨hmem, by omega, hfl, statusWf_of_running hrun⟩

end Sys2Proof.Proofs
end

section
/-! PROOFS. Runs and the host's ports (10_state.md R38 to R41, 70_reset_and_hazards.md R233, R235). -/

namespace Sys2Proof.Proofs

open Sys2Proof.Machine

/-! ### The streams over a run -/

/-- The streams of `s` are prefixes of those of `t` (R38, R39). -/
def StreamsExtend (s t : State) : Prop := s.out <+: t.out ∧ s.diag <+: t.diag

theorem streamsExtend_of_eq {s t : State} (hout : t.out = s.out) (hdiag : t.diag = s.diag) :
    StreamsExtend s t :=
  ⟨by rw [hout], by rw [hdiag]⟩

theorem StreamsExtend.trans {s t u : State} (h : StreamsExtend s t) (h' : StreamsExtend t u) :
    StreamsExtend s u :=
  ⟨h.1.trans h'.1, h.2.trans h'.2⟩

/-- A step leaves the streams alone, appends a byte to `out` (PRN) or an event to `diag` (an unknown
opcode). -/
theorem step_streamsExtend {s t : State} (h : step s = .next t) : StreamsExtend s t := by
  obtain ⟨-, ⟨-, rfl⟩ | ⟨-, i, -, hx⟩ | ⟨-, op, -, rfl⟩⟩ := step_cases h
  · exact streamsExtend_of_eq rfl rfl
  · obtain ⟨hdiag, hout | ⟨a, ha, -, hout⟩⟩ := displayWrittenOnlyByPrn i s t hx
    · exact streamsExtend_of_eq hout hdiag
    · exact ⟨hout ▸ List.prefix_append _ _, by rw [hdiag]⟩
  · exact ⟨List.prefix_rfl, List.prefix_append _ _⟩

theorem hostStep_streamsExtend (s : State) : StreamsExtend s (hostStep s) := by
  cases h : step s with
  | next t => rw [hostStep_of_next h]; exact step_streamsExtend h
  | fault r => simp only [hostStep, h]; exact streamsExtend_of_eq rfl rfl
  | refused r => simp only [hostStep, h]; exact streamsExtend_of_eq rfl rfl

/-- Settles O48, by induction on the budget. -/
theorem streamsOnlyGrow : Obligations.StreamsOnlyGrow := by
  intro k
  induction k with
  | zero => exact fun s => streamsExtend_of_eq rfl rfl
  | succ k ih => exact fun s => (hostStep_streamsExtend s).trans (ih (hostStep s))

/-! ### Run control -/

/-- R110: a Running engine has a next step. -/
theorem step_next_of_running {s : State} (hrun : s.status = .running) : ∃ t, step s = .next t := by
  by_cases hf : Fetchable s
  · cases hd : decodedAt s with
    | instr i =>
      obtain ⟨t, ht⟩ := exec_next i s
      exact ⟨t, (step_of_instr hrun hf hd).trans ht⟩
    | unknown op => exact ⟨_, step_of_unknown hrun hf hd⟩
  · exact ⟨_, step_of_not_fetchable hrun hf⟩

/-- R235: a run from an engine that is not Running does nothing. -/
theorem runBudget_of_not_running {s : State} (h : s.status ≠ .running) (k : Nat) :
    runBudget k s = s := by
  induction k with
  | zero => rfl
  | succ k ih => rw [runBudget_succ, hostStep_of_not_running h, ih]

/-! ### The session -/

@[simp] theorem isRunning_of_running {s : State} (h : s.status = .running) : isRunning s = true :=
  decide_eq_true h

@[simp] theorem isRunning_of_not_running {s : State} (h : s.status ≠ .running) :
    isRunning s = false :=
  decide_eq_false h

/-- R41: the load port is open before the first step, while the engine is Running. -/
theorem serve_loadWrite_open {x : Session} (hx : x.started = false) (hrun : x.engine.status = .running)
    (addr : Nat) (byte : Byte) :
    x.serve (.loadWrite addr byte) = .accepted ⟨loadWrite x.engine addr byte, false⟩ := by
  simp [Session.serve, hx, hrun]

/-- Elsewhere a load write is not legal (entry 7). -/
theorem serve_loadWrite_closed {x : Session} (h : x.started = true ∨ x.engine.status ≠ .running)
    (addr : Nat) (byte : Byte) : x.serve (.loadWrite addr byte) = .notLegal := by
  obtain hx | hrun := h
  · simp [Session.serve, hx]
  · simp [Session.serve, hrun]

theorem serve_step (x : Session) :
    x.serve .step = .accepted ⟨hostStep x.engine, x.started || isRunning x.engine⟩ := rfl

theorem serve_run (x : Session) (k : Nat) : x.serve (.run k) =
    .accepted ⟨runBudget k x.engine, x.started || (decide (0 < k) && isRunning x.engine)⟩ := rfl

/-- R41: once the first step is taken, no accepted request but Reset takes the mark back. -/
theorem serve_keeps_started {x y : Session} {q : Request} (hq : q ≠ .reset) (hx : x.started = true)
    (h : x.serve q = .accepted y) : y.started = true := by
  cases q with
  | loadWrite addr byte => rw [serve_loadWrite_closed (.inl hx)] at h; cases h
  | step => rw [serve_step, hx] at h; cases h; rfl
  | run k => rw [serve_run, hx] at h; cases h; rfl
  | reset => exact absurd rfl hq

/-- Settles O51: `loadWrite` in the open port; `hostStep` and `runBudget` from an engine that is Running
and from one that is not; the closed port; the mark; Reset. -/
theorem firstStepClosesLoadPort : Obligations.FirstStepClosesLoadPort := by
  intro x addr byte
  refine ⟨fun hx hrun ha => ?_, fun hx hrun ha => ?_, fun hrun => ?_, fun hrun => ⟨?_, fun k => ?_⟩, ?_,
    fun h => serve_loadWrite_closed h addr byte, fun q y => serve_keeps_started, rfl⟩
  · rw [serve_loadWrite_open hx hrun, loadWrite_of_lt _ _ ha]
    rfl
  · rw [serve_loadWrite_open hx hrun, loadWrite_of_ge _ _ ha]
    rfl
  · obtain ⟨t, ht⟩ := step_next_of_running hrun
    refine ⟨t, ht, ?_, fun k => ?_⟩
    · simp [serve_step, hostStep_of_next ht, hrun]
    · simp [serve_run, hostStep_of_next ht, hrun]
  · simp [serve_step, hostStep_of_not_running hrun, hrun]
  · simp [serve_run, runBudget_of_not_running hrun, hrun]
  · simp [serve_run]

/-! ### The status port -/

/-- Settles O52: each port function is read off at the status, and the code at the record's cause. -/
theorem statusPortCodes : Obligations.StatusPortCodes := by
  intro s
  refine ⟨fun h => ?_, fun h => ?_, fun r h => ?_⟩
  · simp [statusRegister, faultRegister, faultCode, h]
  · simp [statusRegister, faultRegister, faultCode, h]
  · refine ⟨by simp [statusRegister, h], by simp [faultRegister, h], ?_⟩
    simp only [faultCode, faultRegister, h]
    cases r.cause <;> rfl

end Sys2Proof.Proofs
end

section
/-! PROOFS. Memory (20_memory.md): the read and write contracts, the memory frame of the execute phase,
a PUSH over its own operand byte, and a run over zero cells to the top of memory. -/

namespace Sys2Proof.Proofs

open Sys2Proof.Machine

/-! ### Contracts and frame -/

/-- Settles O33: above 255 both primitives raise with the address unmasked; at most 255 the write is
`Memory.write`, which replaces its own cell alone. -/
theorem memoryContracts : Obligations.MemoryContracts := by
  intro s a v hm
  constructor
  · intro ha
    exact ⟨memRead_of_ge s ha, memWrite_of_ge s v ha⟩
  · intro ha
    have ha' : a < Config.memSize := Nat.lt_succ_of_le ha
    exact ⟨memRead_of_lt s ha', s.mem.write a v, memWrite_of_lt s v ha',
      Memory.read_write_same hm a v, fun _ hx => Memory.read_write_other hm v hx⟩

/-- Settles O26: of the instructions that complete PUSH alone writes memory, one cell at its push
address; a raise writes the status alone. -/
theorem memoryWrittenOnlyByPush : Obligations.MemoryWrittenOnlyByPush := by
  intro i s t x hm h hx
  obtain hc | ⟨c, -, rfl⟩ := exec_cases h
  · cases hc with
    | push a ha => exact Memory.read_write_other hm _ (hx a rfl)
    | _ => rfl
  · rfl

/-! ### A PUSH over its own operand byte -/

/-- R91: the byte 0x45 at pc decodes to PUSH of the register that the next byte names. -/
theorem decodedAt_push {s : State} (hop : s.mem.read s.pc.toNat = 0x45#8) :
    decodedAt s = .instr (.push (s.mem.read (s.pc.toNat + 1))) := by
  rw [decodedAt, bytesAt, hop]
  rfl

/-- Settles O46: the operand is fetched before the write, so the register is the one the old byte named;
the push address is pc + 1, so that is the cell the register's byte is read back from. -/
theorem pushOverItsOwnOperand : Obligations.PushOverItsOwnOperand := by
  intro s ha ⟨hrun, hf⟩ hm hop hsp
  have haddr : (pushAddress s).toNat = s.pc.toNat + 1 := (pushAddress_toNat s).trans hsp
  refine ⟨_, (step_of_instr hrun hf (decodedAt_push hop)).trans (exec_of_completes (.push _ ha)),
    advance_pc_toNat rfl hf (by decide), ?_⟩
  rw [advance_mem, State.withSp_mem, State.withMem_mem, haddr]
  exact Memory.read_write_same hm _ _

/-! ### Running off the end -/

/-- R91: a zero byte at pc decodes to NOP. -/
theorem decodedAt_nop {s : State} (hop : s.mem.read s.pc.toNat = 0x00#8) :
    decodedAt s = .instr .nop := by
  rw [decodedAt, bytesAt, hop]
  rfl

/-- R61, R191: the host's step at a zero cell that can be fetched advances pc by 1 and changes nothing
else. -/
theorem hostStep_of_zero_cell {s : State} (hrun : s.status = .running) (hf : Fetchable s)
    (hop : s.mem.read s.pc.toNat = 0x00#8) : hostStep s = advance s 1 :=
  hostStep_of_next ((step_of_instr hrun hf (decodedAt_nop hop)).trans (exec_of_completes .nop))

/-- A run over zero cells up to 254, `n` of them ahead, moves pc there and changes nothing else. -/
theorem runBudget_of_zero_cells (n : Nat) : ∀ {s : State}, s.status = .running →
    s.pc.toNat + n = 254 → (∀ x, s.pc.toNat ≤ x → x < 254 → s.mem.read x = 0x00#8) →
    runBudget n s = s.withPc 254#9 := by
  induction n with
  | zero =>
    intro s _ hpc _
    have hpc' : s.pc = 254#9 := BitVec.eq_of_toNat_eq hpc
    rw [runBudget_zero, ← hpc']
    rfl
  | succ n ih =>
    intro s hrun hpc hzero
    have hf : Fetchable s := show s.pc.toNat + 2 < 256 by omega
    have hadv : (advance s 1).pc.toNat = s.pc.toNat + 1 := advance_pc_toNat rfl hf (by decide)
    have hzero' : ∀ x, (advance s 1).pc.toNat ≤ x → x < 254 → s.mem.read x = 0x00#8 :=
      fun x hx => hzero x (by omega)
    calc runBudget (n + 1) s
        = runBudget n (advance s 1) := by
          rw [runBudget_succ, hostStep_of_zero_cell hrun hf (hzero _ le_rfl (by omega))]
      _ = (advance s 1).withPc 254#9 := ih hrun (by omega) hzero'
      _ = s.withPc 254#9 := rfl

/-- R111, R120, R121: at 254 the fetch raises at address 256 and nothing else changes. -/
theorem hostStep_at_254 {s : State} (hrun : s.status = .running) (hpc : s.pc = 254#9) :
    hostStep s = enterFault (.outOfRangeAddress 256) s := by
  have hstep := step_of_not_fetchable hrun (by simp [Fetchable, hpc])
  rw [hpc] at hstep
  exact hostStep_of_next hstep

/-- Settles O47: 254 - pc NOPs reach 254 (induction on their number), and the step there faults whatever
the cell holds. -/
theorem runningOffTheEndFaults : Obligations.RunningOffTheEndFaults := by
  intro s hrun hle hzero
  have hnops : runBudget (254 - s.pc.toNat) s = s.withPc 254#9 :=
    runBudget_of_zero_cells _ hrun (by omega) fun x hx hlt => hzero x hx (by omega)
  refine ⟨hnops, ?_⟩
  have hbudget : 255 - s.pc.toNat = (254 - s.pc.toNat) + 1 := by omega
  rw [hbudget, runBudget_add, hnops, runBudget_succ, runBudget_zero,
    hostStep_at_254 (s := s.withPc 254#9) hrun rfl]
  rfl

end Sys2Proof.Proofs
end

section
/-! PROOFS. Encoding (30_encoding.md): what the decoder answers on any three bytes, said once in both
directions, and the places of an image's instructions in memory (R85, R99, R233). -/

namespace Sys2Proof.Proofs

open Sys2Proof.Machine

/-! ### The decoder and the encoder -/

/-- The three fetched bytes as they lie in memory. -/
def fetchedBytes (f : Fetched) : List Byte := [f.op, f.a, f.b]

/-- The opcode bytes of the map, in the order of R91. -/
def opcodes : List Byte :=
  [0x82#8, 0x47#8, 0x01#8, 0xA0#8, 0xA2#8, 0x45#8, 0x46#8, 0xA7#8, 0x54#8, 0x55#8, 0x56#8, 0x00#8]

theorem encode_length (i : Instr) : (encode i).length = i.length := by
  cases i <;> rfl

theorem decode_window_encode (i : Instr) (following : List Byte) :
    decode (window (encode i ++ following)) = .instr i := by
  cases i <;> rfl

/-- With any bytes after it, the opcode of a row decodes to an instruction that those bytes spell. -/
theorem decode_opcode (i : Instr) (a b : Byte) :
    ∃ j, decode ⟨i.opcode, a, b⟩ = .instr j ∧ encode j <+: [i.opcode, a, b] := by
  cases i <;> exact ⟨_, rfl, _, rfl⟩

/-- R85, R92: an instruction is decoded exactly from the bytes that begin with its encoding. -/
theorem decode_eq_instr_iff {f : Fetched} {i : Instr} :
    decode f = .instr i ↔ encode i <+: fetchedBytes f := by
  constructor
  · intro h
    obtain ⟨op, a, b⟩ := f
    obtain rfl : op = i.opcode := op_of_decode_instr h
    obtain ⟨j, hj, hspell⟩ := decode_opcode i a b
    obtain rfl : i = j := Decoded.instr.inj (h.symm.trans hj)
    exact hspell
  · rintro ⟨following, h⟩
    have hf : f = window (encode i ++ following) := by rw [h]; rfl
    rw [hf, decode_window_encode]

/-- One row of the decoder answers unknown where it is not read and the rows below answer so. -/
theorem decode_row_eq_unknown {op code x : Byte} {j : Instr} {below : Decoded} :
    (if op = code then .instr j else below) = Decoded.unknown x ↔ op ≠ code ∧ below = .unknown x := by
  by_cases hop : op = code <;> simp [hop]

/-- R92: unknown is answered exactly for the bytes that are no opcode of the map. -/
theorem decode_eq_unknown_iff {f : Fetched} {op : Byte} :
    decode f = .unknown op ↔ f.op ∉ opcodes ∧ f.op = op := by
  simp only [decode, decode_row_eq_unknown, opcodes, List.mem_cons, List.not_mem_nil, or_false,
    not_or, Decoded.unknown.injEq, and_assoc, ne_eq]

/-- Settles O38: the first half is `decode_window_encode`; for the second, the bytes beyond the encoding
are what `decode_eq_instr_iff` leaves of the three. -/
theorem decodeAndEncodeAgree : Obligations.DecodeAndEncodeAgree := by
  refine ⟨decode_window_encode, fun f i h => ?_⟩
  obtain ⟨unused, hbytes⟩ := decode_eq_instr_iff.mp h
  refine ⟨unused, hbytes.symm, ?_⟩
  have hlen : (encode i).length + unused.length = 3 := by
    rw [← List.length_append, hbytes]; rfl
  rw [← encode_length]
  omega

/-! ### Loaded images -/

/-- R233: loading `bytes` from cell `i` on, where they fit, fills their cells and leaves the others. -/
theorem read_loadFrom (bytes : List Byte) : ∀ {s : State} {i : Nat} (x : Nat), s.status = .running →
    s.mem.wf = true → i + bytes.length ≤ Config.memSize →
    (loadFrom s i bytes).mem.read x =
      if x < i then s.mem.read x else bytes.getD (x - i) (s.mem.read x) := by
  induction bytes with
  | nil => intro s i x _ _ _; simp
  | cons v rest ih =>
    intro s i x hrun hm hfit
    have hfit' : i + 1 + rest.length ≤ Config.memSize := by
      rwa [List.length_cons, ← Nat.add_assoc, Nat.add_right_comm] at hfit
    have hi : i < Config.memSize := by omega
    rw [loadFrom_cons_of_lt hrun v rest hi,
      ih (s := s.withMem (s.mem.write i v)) x hrun (Memory.wf_write hm v hi) hfit', State.withMem_mem]
    obtain hx | rfl | hx := Nat.lt_trichotomy x i
    · rw [if_pos (by omega), if_pos hx, Memory.read_write_other hm v hx.ne]
    · simp [Memory.read_write_same hm]
    · have hsub : x - i = x - (i + 1) + 1 := by omega
      rw [if_neg (by omega), if_neg (by omega), Memory.read_write_other hm v hx.ne', hsub,
        List.getD_cons_succ]

/-- R99, R233: cell `x` of a booted image that fits holds the image's byte `x`, and 0 beyond its end. -/
theorem read_boot {image : List Byte} (h : image.length ≤ 256) (x : Nat) :
    (boot image).mem.read x = image.getD x 0#8 :=
  read_loadFrom image x rfl Memory.wf_reset ((Nat.zero_add _).trans_le h)

/-- The three bytes at pc over the memory of a booted image are the image's own from pc on. -/
theorem bytesAt_boot {image : List Byte} {s : State} (h : image.length ≤ 256)
    (hmem : s.mem = (boot image).mem) : bytesAt s = window (image.drop s.pc.toNat) := by
  simp [bytesAt, window, hmem, read_boot h]

/-- Settles O40: the image from pc on is the instruction's encoding and what follows it, so it decodes as
`decode_window_encode` says. -/
theorem loadedInstructionsDecodeInPlace : Obligations.LoadedInstructionsDecodeInPlace := by
  intro before after i s hfit hmem hpc hle
  have hf : Fetchable s := show s.pc.toNat + 2 < 256 by omega
  have hdrop : (encodeProgram (before ++ i :: after)).drop s.pc.toNat =
      encode i ++ encodeProgram after := by
    simp [encodeProgram, hpc]
  refine ⟨fetch_of_fetchable hf, ?_⟩
  rw [decodedAt, bytesAt_boot hfit hmem, hdrop, decode_window_encode]

/-! ### The opcode map -/

/-- R93: between the opcodes of the map lie the listed ranges. -/
theorem not_mem_opcodes_iff (op : Byte) : op ∉ opcodes ↔
    (0x02 ≤ op.toNat ∧ op.toNat ≤ 0x44) ∨ (0x48 ≤ op.toNat ∧ op.toNat ≤ 0x53) ∨
    (0x57 ≤ op.toNat ∧ op.toNat ≤ 0x81) ∨ (0x83 ≤ op.toNat ∧ op.toNat ≤ 0x9F) ∨
    op.toNat = 0xA1 ∨ (0xA3 ≤ op.toNat ∧ op.toNat ≤ 0xA6) ∨ 0xA8 ≤ op.toNat := by
  simp only [opcodes, List.mem_cons, List.not_mem_nil, or_false, ← BitVec.toNat_inj, BitVec.toNat_ofNat]
  omega

/-- The opcodes as numbers: below 256 a number is one exactly when its byte is. -/
theorem ofNat_mem_opcodes_iff {n : Nat} (hn : n < 256) :
    BitVec.ofNat 8 n ∈ opcodes ↔ n ∈ opcodes.map BitVec.toNat := by
  have hval : (BitVec.ofNat 8 n).toNat = n := Nat.mod_eq_of_lt hn
  rw [← hval, List.mem_map_of_injective (fun _ _ => BitVec.eq_of_toNat_eq), hval]

/-- R93: the unknown byte values are the 256 without the map's twelve. -/
theorem filter_unknown_eq_sdiff :
    ((Finset.range 256).filter fun n =>
      decode ⟨BitVec.ofNat 8 n, 0#8, 0#8⟩ = .unknown (BitVec.ofNat 8 n)) =
    Finset.range 256 \ (opcodes.map BitVec.toNat).toFinset := by
  ext n
  simp only [Finset.mem_filter, Finset.mem_sdiff, Finset.mem_range, List.mem_toFinset,
    decode_eq_unknown_iff, and_true]
  exact and_congr_right fun hn => not_congr (ofNat_mem_opcodes_iff hn)

/-- R93: the twelve opcodes are distinct bytes, so 256 - 12 values remain. -/
theorem card_sdiff_opcodes :
    (Finset.range 256 \ (opcodes.map BitVec.toNat).toFinset).card = 244 := by
  have hsub : (opcodes.map BitVec.toNat).toFinset ⊆ Finset.range 256 := fun n hn => by
    obtain ⟨op, -, rfl⟩ := List.mem_map.mp (List.mem_toFinset.mp hn)
    exact Finset.mem_range.mpr op.isLt
  have htwelve : (opcodes.map BitVec.toNat).toFinset.card = 12 := by decide
  rw [Finset.card_sdiff_of_subset hsub, Finset.card_range, htwelve]

/-- Settles O36: unknown is answered off the map (`decode_eq_unknown_iff`), where the listed ranges and
244 of the 256 values lie. -/
theorem unknownOpcodesAreTheListedRanges : Obligations.UnknownOpcodesAreTheListedRanges := by
  refine ⟨fun op a b => ?_, ?_, fun _ => rfl⟩
  · rw [decode_eq_unknown_iff, and_iff_left rfl, not_mem_opcodes_iff]
  · exact (congrArg Finset.card filter_unknown_eq_sdiff).trans card_sdiff_opcodes

/-- Settles O37: what decodes to an instruction begins with its opcode, which fixes its length; the byte
of an unknown one is in neither list. -/
theorem lengthKnownFromOpcode : Obligations.LengthKnownFromOpcode := by
  intro f
  cases hd : decode f with
  | instr i =>
    rw [op_of_decode_instr hd]
    cases i <;> rfl
  | unknown op =>
    obtain ⟨hop, -⟩ := decode_eq_unknown_iff.mp hd
    simp only [opcodes, List.mem_cons, not_or] at hop
    simp [Decoded.length, hop]

/-! ### Unused bytes -/

/-- R95: three bytes that agree on as many as the decoded length, or more, decode alike. -/
theorem decode_eq_of_take_eq {f g : Fetched} {n : Nat} (hn : (decode f).length ≤ n)
    (h : (fetchedBytes g).take n = (fetchedBytes f).take n) : decode g = decode f := by
  cases hd : decode f with
  | instr i =>
    rw [hd] at hn
    have hspell : encode i <+: (fetchedBytes f).take n :=
      List.prefix_take_iff.mpr ⟨decode_eq_instr_iff.mp hd, (encode_length i).trans_le hn⟩
    rw [← h] at hspell
    exact decode_eq_instr_iff.mpr (hspell.trans (List.take_prefix _ _))
  | unknown op =>
    rw [hd] at hn
    obtain ⟨m, rfl⟩ := Nat.exists_eq_add_of_le' hn
    have hop : g.op = f.op := List.head_eq_of_cons_eq h
    rw [decode_eq_unknown_iff, hop]
    exact decode_eq_unknown_iff.mp hd

/-- Settles O39: the bytes kept are as many as the decoded length. -/
theorem unusedOperandBytesIgnored : Obligations.UnusedOperandBytesIgnored :=
  fun _ => ⟨fun h _ => decode_eq_of_take_eq h rfl, fun h _ _ => decode_eq_of_take_eq h.le rfl⟩

/-- Settles O35: each pattern is the opcode of one row, whose test alone succeeds; a byte off the map is
unknown. -/
theorem opcodeMapDecodes : Obligations.OpcodeMapDecodes := by
  intro a b
  iterate 12 refine ⟨⟨rfl, rfl⟩, ?_⟩
  exact fun op hop => decode_eq_unknown_iff.mpr ⟨hop, rfl⟩

end Sys2Proof.Proofs
end

section
/-! PROOFS. The execution cycle (40_execution_cycle.md): what a step and a budgeted run are, and what a
step that faults leaves (R110 to R117, R120, R121). -/

namespace Sys2Proof.Proofs

open Sys2Proof.Machine

/-! ### One step -/

/-- Settles O14: the three bytes are those of `decodedAt`. -/
theorem stepRunsDecodedInstruction : Obligations.StepRunsDecodedInstruction :=
  fun _ _ ⟨hrun, hf⟩ hd => step_of_instr hrun hf hd

/-- Settles O16: the fetch raises at the larger of pc and 256. -/
theorem fetchPastTheTopFaults : Obligations.FetchPastTheTopFaults := by
  intro s hrun htop
  have hf : ¬ Fetchable s := Nat.not_lt.mpr (Nat.add_le_add_right htop 2)
  rw [step_of_not_fetchable hrun hf]
  refine ⟨fun hle => ?_, fun hlt => ?_⟩
  · rw [max_eq_right hle]; rfl
  · rw [max_eq_left hlt.le]; rfl

/-- R114, R207: a step that ends Faulted entered it, with the condition of the priority list, from its
start state: what completes and an unknown opcode end in another status. -/
theorem eq_enterFault_of_step {s t : State} {r : FaultRecord} (h : step s = .next t)
    (ht : t.status = .faulted r) : ∃ c, conditionAt s = some c ∧ t = enterFault c s := by
  obtain ⟨hrun, ⟨hf, rfl⟩ | ⟨hf, i, hd, hx⟩ | ⟨-, op, -, rfl⟩⟩ := step_cases h
  · exact ⟨_, conditionAt_of_not_fetchable hf, rfl⟩
  · obtain hc | ⟨c, hbad, rfl⟩ := exec_cases hx
    · obtain hst | ⟨-, rfl⟩ := hc.status
      · rw [hst, hrun] at ht; cases ht
      · cases ht
    · exact ⟨c, by rw [conditionAt_of_fetchable hf, hd]; exact hbad, rfl⟩
  · rw [advance_status, report_status, hrun] at ht; cases ht

/-- Settles O17: fault entry writes the status alone, and its record names pc. -/
theorem faultingStepCommitsNothing : Obligations.FaultingStepCommitsNothing := by
  intro s t r h ht
  obtain ⟨c, -, rfl⟩ := eq_enterFault_of_step h ht
  obtain rfl : c.record s.pc = r := Status.faulted.inj ht
  exact ⟨rfl, rfl⟩

/-! ### A run under a budget -/

/-- R110: a run with a step left in its budget goes on from the state of that step. -/
theorem runBudget_succ_of_next {s t : State} (h : step s = .next t) (k : Nat) :
    runBudget (k + 1) s = runBudget k t := by
  rw [runBudget_succ, hostStep_of_next h]

/-- Settles O15: only a Running state steps, and every Running state does. -/
theorem stepExactlyWhenRunning : Obligations.StepExactlyWhenRunning :=
  ⟨fun _ => ⟨fun ⟨_, h⟩ => (step_cases h).1, step_next_of_running⟩,
    fun k _ _ h => runBudget_succ_of_next h k, fun k _ h => runBudget_of_not_running h k,
    runBudget_zero⟩

/-- The status that an end of a run reports (R236). -/
def endStatus : RunEnd → Status
  | .notEnded => .running
  | .halted => .halted
  | .faulted r => .faulted r

/-- R236, R237: the end of a run and its final status determine each other. -/
theorem runEnd_eq_iff (s : State) (e : RunEnd) : runEnd s = e ↔ s.status = endStatus e := by
  cases hs : s.status with
  | running => cases e <;> simp [runEnd, hs, endStatus]
  | halted => cases e <;> simp [runEnd, hs, endStatus]
  | faulted r => cases e <;> simp [runEnd, hs, endStatus]

/-- Settles O49: the larger budget continues the run under `j` (`runBudget_add`), from an ended state
without effect and from a Running one by its next step. -/
theorem budgetedRunEndsOnceOrGoesOn : Obligations.BudgetedRunEndsOnceOrGoesOn := by
  intro j s
  refine ⟨fun hend k => ?_, fun hrun => ?_, runEnd_eq_iff _ _, runEnd_eq_iff _ _,
    fun r => runEnd_eq_iff _ _⟩
  · rw [runBudget_add, runBudget_of_not_running hend]
  · obtain ⟨t, ht⟩ := step_next_of_running hrun
    refine ⟨t, ht, fun k => ?_⟩
    rw [Nat.add_right_comm, Nat.add_assoc, runBudget_add, runBudget_succ_of_next ht]

end Sys2Proof.Proofs
end

section
/-! PROOFS. The ALU (41_alu.md): what ADD, MUL and CMP write, what they raise, and their laws. -/

namespace Sys2Proof.Proofs

open Sys2Proof.Machine

/-! ### The raises of an instruction -/

/-- R206 step 5: where the first used index names no register, only the status is written, with that
index. -/
theorem exec_of_first_index_gt {i : Instr} {s : State} {a : Byte} {rest : List Byte}
    (hi : usedIndices i s.fl.e = a :: rest) (ha : 7 < a.toNat) :
    exec i s = .next { s with status := .faulted ⟨.outOfRangeRegister, s.pc, a.toNat⟩ } := by
  refine exec_of_badIndex (c := .outOfRangeRegister a.toNat) ?_
  rw [hi, badIndex, if_neg (Nat.not_lt.mpr ha)]

/-- R206 step 6: where the first used index names a register and the second none, only the status is
written, with the second index. -/
theorem exec_of_second_index_gt {i : Instr} {s : State} {a b : Byte} {rest : List Byte}
    (hi : usedIndices i s.fl.e = a :: b :: rest) (ha : a.toNat < 8) (hb : 7 < b.toNat) :
    exec i s = .next { s with status := .faulted ⟨.outOfRangeRegister, s.pc, b.toNat⟩ } := by
  refine exec_of_badIndex (c := .outOfRangeRegister b.toNat) ?_
  rw [hi, badIndex, if_pos ha, badIndex, if_neg (Nat.not_lt.mpr hb)]

/-! ### ADD and MUL -/

/-- R24: a register write takes its value modulo 256, so a value reduced before is written alike. -/
theorem ofNat_mod_256 (n : Nat) : BitVec.ofNat 8 (n % 256) = BitVec.ofNat 8 n :=
  BitVec.eq_of_toNat_eq (Nat.mod_mod n 256)

/-- Settles O3: with both indices in range ADD completes, and the register write reduces the sum. -/
theorem addWritesSumModulo256 : Obligations.AddWritesSumModulo256 := by
  intro a b s _
  refine ⟨rfl, fun ha hb => ?_, exec_of_first_index_gt rfl, exec_of_second_index_gt rfl⟩
  rw [ofNat_mod_256]
  exact exec_of_completes (.add a b ha hb)

/-- Settles O4: with both indices in range MUL completes, and the register write reduces the product. -/
theorem mulWritesLowProduct : Obligations.MulWritesLowProduct := by
  intro a b s _
  refine ⟨rfl, fun ha hb => ?_, exec_of_first_index_gt rfl, exec_of_second_index_gt rfl⟩
  rw [ofNat_mod_256]
  exact exec_of_completes (.mul a b ha hb)

/-! ### CMP -/

/-- Settles O5: with both indices in range CMP completes with `compareFlags`, whose flags are the three
comparisons. -/
theorem cmpWritesAllThreeFlags : Obligations.CmpWritesAllThreeFlags := by
  intro a b s _
  refine ⟨rfl, fun ha hb => ?_, exec_of_first_index_gt rfl, exec_of_second_index_gt rfl⟩
  exact ⟨compareFlags s.regs[a.toNat] s.regs[b.toNat], exec_of_completes (.cmp a b ha hb),
    decide_eq_true_iff, decide_eq_true_iff, decide_eq_true_iff, compareFlags_count _ _⟩

/-- R136: a comparison with its operands exchanged keeps E and exchanges L and G. -/
theorem compareFlags_swap (va vb : Byte) : compareFlags vb va =
    ⟨(compareFlags va vb).e, (compareFlags va vb).g, (compareFlags va vb).l⟩ := by
  simp only [compareFlags, gt_iff_lt, eq_comm (a := vb.toNat)]

/-! ### The laws of the ALU -/

/-- Settles O43: the sum and the product commute before they are reduced; the second CMP reads the
registers that the first one read, since CMP writes none. -/
theorem aluLaws : Obligations.AluLaws := by
  intro a b s ha hb
  refine ⟨⟨_, _, exec_of_completes (.add a b ha hb), exec_of_completes (.add b a hb ha), ?_⟩,
    ⟨_, _, exec_of_completes (.mul a b ha hb), exec_of_completes (.mul b a hb ha), ?_⟩,
    ⟨_, _, exec_of_completes (.cmp a b ha hb), exec_of_completes (.cmp b a hb ha), ?_⟩⟩
  · simp only [advance_regs, State.withRegs_regs, Vector.getElem_set_self, Nat.add_comm]
  · simp only [advance_regs, State.withRegs_regs, Vector.getElem_set_self, Nat.mul_comm]
  · simp only [advance_fl, advance_regs, State.withFl_fl, State.withFl_regs]
    rw [compareFlags_swap]
    exact ⟨rfl, rfl, rfl, compareFlags_count _ _⟩

end Sys2Proof.Proofs
end

section
/-! PROOFS. Load and output (42_load_and_output.md): what LDI writes, what PRN emits, and what both raise. -/

namespace Sys2Proof.Proofs

open Sys2Proof.Machine

/-- Settles O1: 0x82 is LDI's row; with the index in range LDI completes, and above 7 its one used index
raises. -/
theorem ldiLoadsImmediate : Obligations.LdiLoadsImmediate :=
  fun a b _ _ => ⟨rfl, fun ha => exec_of_completes (.ldi a b ha), exec_of_first_index_gt rfl⟩

/-- Settles O2: 0x47 is PRN's row whatever byte B is; with the index in range PRN completes, and above 7
its one used index raises. -/
theorem prnEmitsRegister : Obligations.PrnEmitsRegister :=
  fun a _ _ => ⟨fun _ => rfl, fun ha => exec_of_completes (.prn a ha), exec_of_first_index_gt rfl⟩

end Sys2Proof.Proofs
end

section
/-! PROOFS. The stack (43_stack.md): what PUSH and POP write and raise, a PUSH undone by a POP, and the
full circle of 256 pushes. -/

namespace Sys2Proof.Proofs

open Sys2Proof.Machine

/-! ### PUSH and POP -/

/-- R30: after a PUSH that completes, the cell at the push address reads as the pushed register. -/
theorem Completes.push_reads {s t : State} {a : Byte} (h : Completes s (.push a) t)
    (ha : a.toNat < Config.numGpr) (hm : s.mem.wf = true) :
    t.mem.read (pushAddress s).toNat = s.regs[a.toNat] := by
  cases h
  exact Memory.read_write_same hm _ _

/-- R30: a PUSH that completes leaves every cell but the one at the push address as it was. -/
theorem Completes.push_reads_other {s t : State} {a : Byte} (h : Completes s (.push a) t)
    (hm : s.mem.wf = true) {x : Nat} (hx : x ≠ (pushAddress s).toNat) :
    t.mem.read x = s.mem.read x := by
  cases h
  exact Memory.read_write_other hm _ hx

/-- Settles O6: 0x45 is PUSH's row; with the index in range PUSH completes with one cell written, the push
address, and above 7 its one used index raises. -/
theorem pushWritesBelowSp : Obligations.PushWritesBelowSp := by
  intro a s _ hm
  refine ⟨fun _ => rfl, fun ha => ?_, exec_of_first_index_gt rfl⟩
  have hpush := Completes.push (s := s) a ha
  rw [← pushAddress_toNat]
  exact ⟨_, exec_of_completes hpush, hpush.push_reads ha hm, fun _ => hpush.push_reads_other hm⟩

/-- R31: SP after a pop, computed in the naturals. -/
theorem dropByte_sp_eq_ofNat (s : State) :
    (dropByte s).sp = BitVec.ofNat 8 ((s.sp.toNat + 1) % 256) := by
  rw [ofNat_mod_256, BitVec.ofNat_add, BitVec.ofNat_toNat, BitVec.setWidth_eq, dropByte_sp]

/-- Settles O7: 0x46 is POP's row; with the index in range POP completes, and above 7 its one used index
raises. -/
theorem popReadsAtSp : Obligations.PopReadsAtSp := by
  intro a s _
  refine ⟨fun _ => rfl, fun ha => ?_, exec_of_first_index_gt rfl⟩
  rw [← dropByte_sp_eq_ofNat]
  exact exec_of_completes (.pop a ha)

/-- Settles O41: the POP reads the cell the PUSH wrote, writes none, and adds to SP the 1 that the PUSH
took. -/
theorem pushPopRoundTrip : Obligations.PushPopRoundTrip := by
  intro a b s ha hb hm
  have hpush := Completes.push (s := s) a ha
  have hcell := hpush.push_reads ha hm
  refine ⟨_, _, exec_of_completes hpush, exec_of_completes (.pop b hb), ?_, ?_, ?_⟩
  · exact (Vector.getElem_set_self hb).trans hcell
  · exact BitVec.sub_add_cancel s.sp 1#8
  · rw [← pushAddress_toNat]
    exact hcell

/-! ### The full circle -/

/-- How many pushes come before the one that writes cell `x`. -/
def pushesBefore (s : State) (x : Nat) : Nat := (s.sp.toNat + 255 - x) % 256

/-- R30: a push brings every cell but the one it writes one push nearer. -/
theorem Completes.pushesBefore_succ {s t : State} {a : Byte} (h : Completes s (.push a) t) {x : Nat}
    (hx : x < 256) (hne : x ≠ (pushAddress s).toNat) : pushesBefore s x = pushesBefore t x + 1 := by
  have hsp : t.sp = pushAddress s := by cases h; rfl
  have := s.sp.isLt
  rw [pushAddress_toNat] at hne
  rw [pushesBefore, pushesBefore, hsp, pushAddress_toNat]
  omega

/-- R163: `n` pushes of a register lower SP by `n`; a cell that held the register's byte before keeps it,
and a cell that one of them writes receives it. -/
theorem execTimes_push {a : Byte} (ha : a.toNat < Config.numGpr) (n : Nat) : ∀ {s : State},
    s.mem.wf = true → ∃ t : State, execTimes n (.push a) s = .next t ∧
      t.sp = s.sp - BitVec.ofNat 8 n ∧
      ∀ x, x < 256 → s.mem.read x = s.regs[a.toNat] ∨ pushesBefore s x < n →
        t.mem.read x = s.regs[a.toNat] := by
  induction n with
  | zero =>
    intro s _
    exact ⟨s, rfl, (BitVec.sub_zero s.sp).symm, fun _ _ h => h.resolve_right (Nat.not_lt_zero _)⟩
  | succ n ih =>
    intro s hm
    have hpush := Completes.push (s := s) a ha
    obtain ⟨t, hrun, hsp, hcells⟩ := ih (hpush.mem_wf hm)
    refine ⟨t, ?_, ?_, fun x hx h => hcells x hx ?_⟩
    · rw [execTimes, exec_of_completes hpush]
      exact hrun
    · rw [hsp, advance_sp, State.withSp_sp, pushAddress, BitVec.sub_sub, ← BitVec.ofNat_add,
        Nat.add_comm]
    · by_cases hxp : x = (pushAddress s).toNat
      · subst hxp
        exact .inl (hpush.push_reads ha hm)
      · refine h.imp (hpush.push_reads_other hm hxp).trans fun hlt => ?_
        rw [hpush.pushesBefore_succ hx hxp] at hlt
        exact Nat.lt_of_succ_lt_succ hlt

/-- Settles O42: every cell is fewer than 256 pushes away, and 256 is 0 in a byte. -/
theorem fullCircleOfPushes : Obligations.FullCircleOfPushes := by
  intro a s ha hm
  obtain ⟨t, hrun, hsp, hcells⟩ := execTimes_push ha 256 hm
  exact ⟨t, hrun, hsp.trans (BitVec.sub_zero s.sp),
    fun x hx => hcells x hx (.inr (Nat.mod_lt _ (by decide)))⟩

end Sys2Proof.Proofs
end

section
/-! PROOFS. The branches (44_branch.md): where JMP, JEQ and JNE go and what they raise, a JMP to itself, and
the two tests of the Equal flag. -/

namespace Sys2Proof.Proofs

open Sys2Proof.Machine

/-! ### JMP -/

/-- R175: a jump to the address in pc leaves the state as it is. -/
theorem jump_eq_self {s : State} {v : Byte} (h : v.toNat = s.pc.toNat) : jump s v = s := by
  have hpc : v.setWidth 9 = s.pc := BitVec.eq_of_toNat_eq ((jump_pc_toNat s v).trans h)
  rw [jump, hpc]
  rfl

/-- R110, R116: a run from a state that steps to itself stays there under every budget. -/
theorem runBudget_of_step_self {s : State} (h : step s = .next s) (k : Nat) : runBudget k s = s := by
  induction k with
  | zero => rfl
  | succ k ih => rw [runBudget_succ_of_next h, ih]

/-- R120, R175: the step after a jump to 254 or 255 faults at address 256. -/
theorem step_jump_of_ge {s : State} {v : Byte} (hrun : s.status = .running) (hv : 254 ≤ v.toNat) :
    step (jump s v) = .next { jump s v with
      status := .faulted ⟨.outOfRangeAddress, (jump s v).pc, 256⟩ } := by
  have hpc : (jump s v).pc.toNat = v.toNat := jump_pc_toNat s v
  obtain ⟨hfault, -⟩ := fetchPastTheTopFaults (jump s v) hrun (hpc ▸ hv)
  exact hfault (hpc ▸ v.isLt.le)

/-- Settles O8: 0x54 is JMP's row; with the index in range JMP completes, a target above 253 cannot be
fetched from, a JMP to itself is a step to the same state, and above 7 its one used index raises. -/
theorem jmpJumpsToRegister : Obligations.JmpJumpsToRegister := by
  intro a s ⟨hrun, hf⟩
  refine ⟨fun _ => rfl, fun ha => ?_, exec_of_first_index_gt rfl⟩
  have hexec : exec (.jmp a) s = .next (jump s s.regs[a.toNat]) := exec_of_completes (.jmp a ha)
  refine ⟨_, hexec, jump_pc_toNat s _, fun htop => ?_, fun hd hself => ?_⟩
  · exact ⟨_, step_jump_of_ge hrun htop, rfl⟩
  · have hstep : step s = .next s := by rw [step_of_instr hrun hf hd, hexec, jump_eq_self hself]
    exact runBudget_of_step_self hstep

/-! ### JEQ and JNE -/

/-- R176: with the Equal flag set JEQ does what JMP does, whatever its index. -/
theorem exec_jeq_of_equal (a : Byte) {s : State} (he : s.fl.e = true) :
    exec (.jeq a) s = exec (.jmp a) s := by
  simp only [exec, execJeq, execJmp, he, branchIf_taken]

/-- R177: with the Equal flag clear JNE does what JMP does, whatever its index. -/
theorem exec_jne_of_not_equal (a : Byte) {s : State} (he : s.fl.e = false) :
    exec (.jne a) s = exec (.jmp a) s := by
  simp only [exec, execJne, execJmp, he, Bool.not_false, branchIf_taken]

/-- Settles O44: the Equal flag decides which of the two does what JMP does; the index is not needed. -/
theorem conditionalBranchesAreComplements : Obligations.ConditionalBranchesAreComplements := by
  intro a s _
  cases he : s.fl.e with
  | true => exact .inl ⟨exec_jeq_of_equal a he, exec_of_completes (.jneNotTaken a he)⟩
  | false => exact .inr ⟨exec_jne_of_not_equal a he, exec_of_completes (.jeqNotTaken a he)⟩

/-- R175: an instruction that does what JMP does goes to the register's byte and writes pc alone. -/
theorem exec_target_of_eq_jmp {i : Instr} {a : Byte} {s : State} (h : exec i s = exec (.jmp a) s)
    (ha : a.toNat < 8) : ∃ p : PcWord,
      exec i s = .next { s with pc := p } ∧ p.toNat = s.regs[a.toNat].toNat :=
  ⟨_, h.trans (exec_of_completes (.jmp a ha)), jump_pc_toNat s _⟩

/-- R175: an instruction that does what JMP does raises at an index above 7. -/
theorem exec_raise_of_eq_jmp {i : Instr} {a : Byte} {s : State} (h : exec i s = exec (.jmp a) s)
    (ha : 7 < a.toNat) :
    exec i s = .next { s with status := .faulted ⟨.outOfRangeRegister, s.pc, a.toNat⟩ } :=
  h.trans (exec_of_first_index_gt rfl ha)

/-- Settles O9: 0x55 is JEQ's row; taken it does what JMP does, and not taken it completes without its
index. -/
theorem jeqJumpsWhenEqual : Obligations.JeqJumpsWhenEqual := by
  intro a s _
  refine ⟨fun _ => rfl, fun he => ?_, fun he => ?_, fun he => ?_⟩
  · exact exec_target_of_eq_jmp (exec_jeq_of_equal a he)
  · exact exec_raise_of_eq_jmp (exec_jeq_of_equal a he)
  · exact exec_of_completes (.jeqNotTaken a he)

/-- Settles O10: 0x56 is JNE's row; taken it does what JMP does, and not taken it completes without its
index. -/
theorem jneJumpsWhenNotEqual : Obligations.JneJumpsWhenNotEqual := by
  intro a s _
  refine ⟨fun _ => rfl, fun he => ?_, fun he => ?_, fun he => ?_⟩
  · exact exec_target_of_eq_jmp (exec_jne_of_not_equal a he)
  · exact exec_raise_of_eq_jmp (exec_jne_of_not_equal a he)
  · exact exec_of_completes (.jneNotTaken a he)

/-! ### The tests of the Equal flag -/

/-- R32: flags of which at most one is set are E alone, L alone, G alone or none. -/
theorem eq_of_atMostOne {f : Flags} (h : f.atMostOne = true) :
    f = ⟨true, false, false⟩ ∨ f = ⟨false, true, false⟩ ∨ f = ⟨false, false, true⟩ ∨
      f = ⟨false, false, false⟩ := by
  obtain ⟨e, l, g⟩ := f
  revert e l g
  decide

/-- Settles O45: the four flag values have the bytes 1, 4, 2 and 0, of which only that of E is 1 or odd. -/
theorem equalTestsAgree : Obligations.EqualTestsAgree := by
  intro f h
  obtain rfl | rfl | rfl | rfl := eq_of_atMostOne h
  · decide
  · decide
  · decide
  · decide

end Sys2Proof.Proofs
end

section
/-! PROOFS. Control (45_control.md): what HLT, NOP and an unknown opcode write, and the pre-fetch fault that
takes the place of each at 254 and 255. -/

namespace Sys2Proof.Proofs

open Sys2Proof.Machine

/-- R111, R121: a Running engine at 254 or 255 faults at address 256, whatever the bytes there hold. -/
theorem step_at_254_or_255 {s : State} (hrun : s.status = .running) (hpc : s.pc = 254#9 ∨ s.pc = 255#9) :
    step s = .next { s with status := .faulted ⟨.outOfRangeAddress, s.pc, 256⟩ } := by
  have hrange : 254 ≤ s.pc.toNat ∧ s.pc.toNat ≤ 256 := by
    obtain h | h := hpc
    · rw [h]; decide
    · rw [h]; decide
  obtain ⟨hfault, -⟩ := fetchPastTheTopFaults s hrun hrange.1
  exact hfault hrange.2

/-- R35: from Halted no step answers a next state. -/
theorem not_step_of_halted {s : State} (hhalt : s.status = .halted) : ¬ ∃ t, step s = .next t := by
  rintro ⟨t, h⟩
  rw [step_of_halted hhalt] at h
  cases h

/-- Settles O11: 0x01 is HLT's row whatever follows; HLT always completes, and at 254 and 255 the fetch
raises before it. -/
theorem hltHaltsInPlace : Obligations.HltHaltsInPlace :=
  fun _ => ⟨fun _ _ => rfl, fun _ => exec_of_completes .hlt,
    fun hrun hpc _ => step_at_254_or_255 hrun hpc, not_step_of_halted⟩

/-- Settles O12: 0x00 is NOP's row whatever follows; NOP always completes, and at 254 and 255 the fetch
raises before it. -/
theorem nopOnlyAdvances : Obligations.NopOnlyAdvances :=
  fun _ => ⟨fun _ _ => rfl, fun _ => exec_of_completes .nop,
    fun hrun hpc _ => step_at_254_or_255 hrun hpc⟩

/-- Settles O13: a byte that is no opcode of the map decodes to unknown, whose step is its report and an
advance by 1; at 254 and 255 the fetch raises before the report. -/
theorem unknownOpcodeReportedAndSkipped : Obligations.UnknownOpcodeReportedAndSkipped := by
  intro s op hrun hop hunknown
  refine ⟨fun hf => ?_, step_at_254_or_255 hrun⟩
  have hd : decodedAt s = .unknown op := by
    subst hop
    exact decode_eq_unknown_iff.mpr ⟨hunknown, rfl⟩
  exact step_of_unknown hrun hf hd

end Sys2Proof.Proofs
end

section
/-! PROOFS. Exceptions (60_exceptions.md): a step faults with the first condition of the priority list, and
the ALU raises UnsupportedOperation, which no step reaches. -/

namespace Sys2Proof.Proofs

open Sys2Proof.Machine

/-! ### The priority list -/

/-- The two places where the priority list finds a condition: the fetch, or an index that the decoded
instruction uses (R206). -/
theorem conditionAt_cases {s : State} {c : Condition} (hc : conditionAt s = some c) :
    (¬ Fetchable s ∧ c = .outOfRangeAddress (max s.pc.toNat Config.memSize)) ∨
    (Fetchable s ∧ ∃ i, decodedAt s = .instr i ∧ badIndex (usedIndices i s.fl.e) = some c) := by
  by_cases hf : Fetchable s
  · rw [conditionAt_of_fetchable hf] at hc
    cases hd : decodedAt s with
    | instr i => rw [hd] at hc; exact .inr ⟨hf, i, rfl, hc⟩
    | unknown op => rw [hd] at hc; cases hc
  · rw [conditionAt_of_not_fetchable hf] at hc
    exact .inl ⟨hf, (Option.some.inj hc).symm⟩

/-- R202, R206: where the priority list finds a condition, the step of a Running engine enters Faulted
with it. -/
theorem step_of_condition {s : State} {c : Condition} (hrun : s.status = .running)
    (hc : conditionAt s = some c) : step s = .next (enterFault c s) := by
  obtain ⟨hf, rfl⟩ | ⟨hf, i, hd, hbad⟩ := conditionAt_cases hc
  · exact step_of_not_fetchable hrun hf
  · exact (step_of_instr hrun hf hd).trans (exec_of_badIndex hbad)

/-- Settles O18: a step that ends Faulted entered it with the condition found (`eq_enterFault_of_step`), and
a condition found makes the step enter Faulted with it (`step_of_condition`). -/
theorem faultIsFirstConditionOfPriorityList : Obligations.FaultIsFirstConditionOfPriorityList := by
  intro s t h r
  constructor
  · intro ht
    obtain ⟨c, hc, rfl⟩ := eq_enterFault_of_step h ht
    exact ⟨c, hc, (Status.faulted.inj ht).symm⟩
  · rintro ⟨c, hc, rfl⟩
    obtain ⟨hrun, -⟩ := step_cases h
    have hnext : Host.Outcome.next (enterFault c s) = .next t :=
      (step_of_condition hrun hc).symm.trans h
    obtain rfl : enterFault c s = t := by injection hnext
    exact enterFault_status c s

/-! ### UnsupportedOperation -/

/-- R131: with both indices in range the ALU raises for a select that is none of its three operations,
with that select, and for no other. -/
theorem alu_eq_unsupported_iff {select x a b : Byte} {s : State} (ha : a.toNat < Config.numGpr)
    (hb : b.toNat < Config.numGpr) : alu select a b s = .error (.unsupportedOperation x) ↔
      x = select ∧ select ≠ 0xA0#8 ∧ select ≠ 0xA2#8 ∧ select ≠ 0xA7#8 := by
  rw [alu_of_operands (readOperands_of_lt s ha hb), writeOperand_of_lt s _ ha,
    writeOperand_of_lt s _ ha]
  by_cases hadd : select = 0xA0#8
  · simp [Config.selectAdd, hadd]
  by_cases hmul : select = 0xA2#8
  · simp [Config.selectAdd, Config.selectMul, hmul]
  by_cases hcmp : select = 0xA7#8
  · simp [Config.selectAdd, Config.selectMul, Config.selectCmp, hcmp]
  · simp [Config.selectAdd, Config.selectMul, Config.selectCmp, hadd, hmul, hcmp, eq_comm]

/-- R206 step 5: a first index that names no register raises whatever the select. -/
theorem alu_of_first_ge (select b : Byte) (s : State) {a : Byte} (ha : Config.numGpr ≤ a.toNat) :
    alu select a b s = .error (.outOfRangeRegister a.toNat) :=
  alu_of_bad_operand select (readOperands_of_first_ge s b ha)

/-- R206 step 6: after a first index in range, a second that names no register raises whatever the
select. -/
theorem alu_of_second_ge (select : Byte) (s : State) {a b : Byte} (ha : a.toNat < Config.numGpr)
    (hb : Config.numGpr ≤ b.toNat) : alu select a b s = .error (.outOfRangeRegister b.toNat) :=
  alu_of_bad_operand select (readOperands_of_second_ge s ha hb)

/-- R131, R206: an index out of range raises its own condition, so UnsupportedOperation tells that both
name registers. -/
theorem indices_lt_of_alu_unsupported {select x a b : Byte} {s : State}
    (h : alu select a b s = .error (.unsupportedOperation x)) :
    a.toNat < Config.numGpr ∧ b.toNat < Config.numGpr := by
  by_cases ha : a.toNat < Config.numGpr
  · by_cases hb : b.toNat < Config.numGpr
    · exact ⟨ha, hb⟩
    · rw [alu_of_second_ge select s ha (Nat.not_lt.mp hb)] at h; cases h
  · rw [alu_of_first_ge select b s (Nat.not_lt.mp ha)] at h; cases h

/-- R203: the priority list holds addresses and register indices, never an ALU select. -/
theorem cause_ne_unsupported_of_condition {s : State} {c : Condition} (hc : conditionAt s = some c) :
    c.cause ≠ .unsupportedOperation := by
  obtain ⟨-, rfl⟩ | ⟨-, i, -, hbad⟩ := conditionAt_cases hc
  · exact Cause.noConfusion
  · obtain ⟨x, -, -, rfl⟩ := badIndex_some hbad
    exact Cause.noConfusion

/-- Settles O19: the ALU raises UnsupportedOperation with both indices in range alone, where its select
decides; a step that ends Faulted records a condition of the priority list, which has no such cause. -/
theorem unsupportedOperationUnreachable : Obligations.UnsupportedOperationUnreachable := by
  refine ⟨fun select x a b s => ⟨fun h => ?_, fun ⟨ha, hb, hsel⟩ => ?_⟩,
    fun select a b s ha => alu_of_first_ge select b s ha,
    fun select a b s ha hb => alu_of_second_ge select s ha hb, fun _ _ => rfl, fun s t r h ht => ?_⟩
  · obtain ⟨ha, hb⟩ := indices_lt_of_alu_unsupported h
    exact ⟨ha, hb, (alu_eq_unsupported_iff ha hb).mp h⟩
  · exact (alu_eq_unsupported_iff ha hb).mpr hsel
  · obtain ⟨c, hc, rfl⟩ := (faultIsFirstConditionOfPriorityList s t h r).mp ht
    exact cause_ne_unsupported_of_condition hc

end Sys2Proof.Proofs
end

section
/-! PROOFS. Boot and the end of a run (70_reset_and_hazards.md): the two ways a load can end, and the step
that ended a run (R233, R236). -/

namespace Sys2Proof.Proofs

open Sys2Proof.Machine

/-! ### Boot -/

/-- R233: from a cell or the first address past the cells on, the loader writes the memory and nothing
else, and where the image does not fit it ends Faulted by its write at 256. -/
theorem loadFrom_cases (bytes : List Byte) : ∀ {s : State} {i : Nat}, s.status = .running →
    s.mem.wf = true → i ≤ 256 → ∃ m : Memory, m.wf = true ∧
      ((i + bytes.length ≤ 256 ∧ loadFrom s i bytes = s.withMem m) ∨
       (256 < i + bytes.length ∧ loadFrom s i bytes =
         (s.withMem m).withStatus (.faulted ⟨.outOfRangeAddress, 0#9, 256⟩))) := by
  induction bytes with
  | nil => exact fun {s i} _ hm hi => ⟨s.mem, hm, .inl ⟨hi, rfl⟩⟩
  | cons v rest ih =>
    intro s i hrun hm hi
    have hlen : i + (v :: rest).length = i + 1 + rest.length := by simp only [List.length_cons]; omega
    rw [hlen]
    obtain hlt | rfl := hi.lt_or_eq
    · rw [loadFrom_cons_of_lt hrun v rest hlt]
      exact ih (s := s.withMem _) hrun (Memory.wf_write hm v hlt) hlt
    · exact ⟨s.mem, hm, .inr ⟨by omega, loadFrom_cons_of_ge s v rest le_rfl⟩⟩

/-- R36, R233: what a booted engine is. The record's pc 0 is that of the reset state, so a load that
faults is a fault entry from there. -/
theorem boot_cases (image : List Byte) : ∃ m : Memory, m.wf = true ∧
    ((image.length ≤ 256 ∧ boot image = State.reset.withMem m) ∨
     (256 < image.length ∧
       boot image = enterFault (.outOfRangeAddress 256) (State.reset.withMem m))) := by
  have h := loadFrom_cases image (s := State.reset) (i := 0) rfl Memory.wf_reset (Nat.zero_le _)
  rwa [Nat.zero_add] at h

/-- Settles O31: the loader keeps memory canonical and writes nothing else, and where it faults its record
fits (`boot_cases`). -/
theorem bootMeetsInvariant : Obligations.BootMeetsInvariant := by
  intro image
  obtain ⟨m, hm, hboot⟩ := boot_cases image
  have hinv : Inv (State.reset.withMem m) := by
    obtain ⟨-, hpc, hfl, -⟩ := resetMeetsInvariant
    exact ⟨hm, hpc, hfl, statusWf_of_running rfl⟩
  obtain ⟨-, h⟩ | ⟨-, h⟩ := hboot
  · rw [h]; exact hinv
  · rw [h]; exact inv_enterFault hinv (statusWf_enterFault_address _ le_rfl)

/-- Settles O50: an image that fits is read back from its cells (`read_boot`); a longer one leaves the
engine Faulted, where a run does nothing. -/
theorem loaderPlacesImage : Obligations.LoaderPlacesImage := by
  intro image
  obtain ⟨m, -, ⟨hfit, h⟩ | ⟨hlong, h⟩⟩ := boot_cases image
  · exact ⟨fun _ => ⟨read_boot hfit, by rw [h]; rfl⟩, fun hlong => absurd hfit (Nat.not_le.mpr hlong)⟩
  · refine ⟨fun hfit => absurd hfit (Nat.not_le.mpr hlong), fun _ => ⟨by rw [h]; rfl, ?_⟩⟩
    exact runBudget_of_not_running (by rw [h]; exact Status.noConfusion)

/-! ### The end of a run -/

/-- R116, R236: a run from a Running engine that is no longer Running was ended by one of its steps, and
that step's state is the final one. -/
theorem exists_step_of_ended {s : State} (hrun : s.status = .running) {k : Nat}
    (hend : (runBudget k s).status ≠ .running) :
    ∃ j < k, step (runBudget j s) = .next (runBudget k s) := by
  induction k with
  | zero => exact absurd hrun hend
  | succ k ih =>
    obtain ⟨hstop, hgo, -⟩ := budgetedRunEndsOnceOrGoesOn k s
    by_cases hk : (runBudget k s).status = .running
    · obtain ⟨t, ht, hnext⟩ := hgo hk
      have hlast : runBudget (k + 1) s = t := hnext 0
      exact ⟨k, Nat.lt_succ_self k, by rw [hlast, ht]⟩
    · obtain ⟨j, hj, hstep⟩ := ih hk
      exact ⟨j, Nat.lt_succ_of_lt hj, by rw [hstop hk 1, hstep]⟩

/-- Settles O53: the step that ended the run (`exists_step_of_ended`) halted at an HLT (`haltedOnlyByHlt`) or
entered Faulted with the condition of the priority list (`eq_enterFault_of_step`). -/
theorem endedRunStoodAtHltOrCondition : Obligations.EndedRunStoodAtHltOrCondition := by
  intro k s hrun
  refine ⟨fun hend => ?_, fun r hend => ?_⟩
  · have hst : (runBudget k s).status = .halted := (runEnd_eq_iff _ _).mp hend
    obtain ⟨j, hj, hstep⟩ := exists_step_of_ended hrun (k := k) (by rw [hst]; exact Status.noConfusion)
    obtain ⟨hf, hd, hfinal⟩ := haltedOnlyByHlt _ _ hstep hst
    exact ⟨j, hj, ⟨(step_cases hstep).1, hf⟩, hd, hfinal⟩
  · have hst : (runBudget k s).status = .faulted r := (runEnd_eq_iff _ _).mp hend
    obtain ⟨j, hj, hstep⟩ := exists_step_of_ended hrun (k := k) (by rw [hst]; exact Status.noConfusion)
    obtain ⟨c, hc, hfinal⟩ := eq_enterFault_of_step hstep hst
    obtain rfl : c.record (runBudget j s).pc = r := by rw [hfinal] at hst; exact Status.faulted.inj hst
    exact ⟨j, hj, c, (step_cases hstep).1, hc, rfl, hfinal⟩

end Sys2Proof.Proofs
end
